-- ==== Sys2Proof/Word.lean ====
section
/-! DEFINITION. The bit vectors of the block: an 8-bit byte (intensity, EncodedByte, `SR`, one character code),
the 3-bit counter and the 10-bit operation word (spec/00_scope.md R5, R6). -/

namespace Sys2Proof

/-- Eight bits, unsigned: an intensity (R52), an EncodedByte (R53), `SR` (R10) or one character code (R112). -/
abbrev Byte := BitVec 8

/-- Three bits, unsigned: the width of `CNT` (R11). -/
abbrev Count := BitVec 3

/-- The ten lines of the input port, `W[9:0] = {IN_START, IN_END, IN_PIX[7:0]}` (R31, R50). -/
abbrev OpWord := BitVec 10

end Sys2Proof
end

