-- ==== Sys2Proof/Machine/Flags.lean ====
section
/-! DEFINITION. There are no flags, condition codes or predicates (spec/10_state.md R18). The one condition the block
computes is combinational and is stored nowhere: whether a push completes the group (spec/42_pack_emit.md R105). -/

namespace Sys2Proof.Machine

/-- The eighth push: `CNT = 7` (R100, R101, R103). -/
def completesGroup (cnt : Count) : Bool := cnt == 7

/-- The same condition as R105 words it: the carry out of bit 2 when the 3-bit `CNT` counts up by one. -/
def countCarry (cnt : Count) : Bool := (cnt.zeroExtend 4 + 1).getLsbD 3

end Sys2Proof.Machine
end

