-- ==== Sys2Proof/Machine/HexToken.lean ====
section
/-! DEFINITION. The hex token formatter (spec/43_hex_token.md R110 to R115): a pure function of the emitted byte. -/

namespace Sys2Proof.Machine

/-- `digit(d)` (R111; the alphabet beyond `0`, `1`, `a`, `f` is from general knowledge, log entry 9). -/
def digit (d : BitVec 4) : Char :=
  match d.toNat with
  | 0 => '0' | 1 => '1' | 2 => '2' | 3 => '3' | 4 => '4' | 5 => '5' | 6 => '6' | 7 => '7'
  | 8 => '8' | 9 => '9' | 10 => 'a' | 11 => 'b' | 12 => 'c' | 13 => 'd' | 14 => 'e' | _ => 'f'

/-- The high hexadecimal digit, `b[7:4]` (R110). -/
def highNibble (b : Byte) : BitVec 4 := b.extractLsb' 4 4

/-- The low hexadecimal digit, `b[3:0]` (R110). -/
def lowNibble (b : Byte) : BitVec 4 := b.extractLsb' 0 4

/-- The characters of `HexToken(b)`: no leading zero, lowercase (R110, R54). -/
def hexChars (b : Byte) : List Char :=
  if highNibble b = 0 then ['0', 'x', digit (lowNibble b)]
  else ['0', 'x', digit (highNibble b), digit (lowNibble b)]

/-- `HexToken(b)` as a string (R110). -/
def hexString (b : Byte) : String := String.ofList (hexChars b)

/-- One character as its 7-bit ASCII code in an 8-bit unit (R112, D13; log entry 9). -/
def charCode (c : Char) : Byte := BitVec.ofNat 8 c.toNat

/-- `HexToken(b)` as the list of character codes that stands on `OUT_TOK` (R32, R112). -/
def hexToken (b : Byte) : List Byte := (hexChars b).map charCode

/-- The value of one hexadecimal digit from its code (R112 read backwards). -/
def digitValue (c : Byte) : Option Nat :=
  if 0x30 ≤ c.toNat ∧ c.toNat ≤ 0x39 then some (c.toNat - 0x30)
  else if 0x61 ≤ c.toNat ∧ c.toNat ≤ 0x66 then some (c.toNat - 0x57)
  else none

/-- A list of digit codes read as a base-16 numeral, on from the value `acc`. -/
def numeralValue (acc : Nat) : List Byte → Option Nat
  | [] => some acc
  | c :: cs => match digitValue c with
    | some d => numeralValue (acc * 16 + d) cs
    | none => none

/-- The byte value recovered from a token, 'by reading the characters after `0x` as a base-16 numeral' (R113). -/
def tokenValue : List Byte → Option Nat
  | 0x30#8 :: 0x78#8 :: c :: cs => numeralValue 0 (c :: cs)
  | _ => none

end Sys2Proof.Machine
end

