-- ==== Sys2Proof/Config.lean ====
section
/-! DEFINITION. The constants of this hardware (spec/00_scope.md R5), the three OPEN parameters, and the free values
for what the spec calls unspecified. The free values are opaque: nothing can be proved of one. -/

namespace Sys2Proof.Config

/-- The intensity classified as bit 0 (R5 `BLACK`). -/
def black : Byte := 0x00

/-- The intensity classified as bit 1 (R5 `WHITE`). -/
def white : Byte := 0xFF

/-- Classified pixels per byte (R5 `GROUP`; C1: eight, not seven). -/
def group : Nat := 8

/-- What stands on `OUT_BYTE` in the n-th step or idle period without an emission: unspecified (R24, U7, D26).
Log entry 4; safe. -/
opaque freeOutByte : Nat → Byte

/-- What stands on `OUT_TOK` in the n-th step or idle period without an emission: unspecified (R24, U7, D26).
Log entry 4; safe. -/
opaque freeOutTok : Nat → List Byte

/-- `SR` before the first reset or `START`: unspecified (R21, R24, U6). Log entry 6; safe. -/
opaque powerOnSr : Byte

/-- `CNT` before the first reset or `START`: unspecified (R21, R24, U6). Log entry 6; safe. -/
opaque powerOnCnt : Count

/-- `OUT_VALID` before the first reset: unspecified (R24). Log entry 6; safe. -/
opaque powerOnOutValid : Bool

/-- `OUT_BYTE` before the first reset: unspecified (R24). Log entry 6; safe. -/
opaque powerOnOutByte : Byte

/-- `OUT_TOK` before the first reset: unspecified (R24). Log entry 6; safe. -/
opaque powerOnOutTok : List Byte

/-- The electrical form of the hardware reset, what `RESET_STYLE` ranges over (R5, R151). -/
structure ResetStyle where
  synchronous : Bool
  activeHigh : Bool
  minimumWidth : Nat
  deriving DecidableEq, Repr, Inhabited

/-- What `CLOCKING` ranges over (R5). -/
structure Clocking where
  frequency : Nat
  cyclesPerOperation : Nat
  deriving DecidableEq, Repr, Inhabited

/-- The OPEN parameter `RESET_STYLE` (R5, R151): no rule, and nothing in the model, depends on it. Log entry 14. -/
opaque resetStyle : ResetStyle

/-- The OPEN parameter `CLOCKING` (R5, D1, D21): no rule, and nothing in the model, depends on it. Log entry 14. -/
opaque clocking : Clocking

/-- The OPEN parameter `TOKEN_PORT_FORM` (R5, D13): how the 3 or 4 character codes are put on wires; no rule, and
nothing in the model, depends on it. Log entry 14. -/
opaque tokenPortForm : List Byte → List Bool

end Sys2Proof.Config
end

