-- ==== Sys2Proof/Machine/State.lean ====
section
/-! DEFINITION. The state of the block as plain data, the reasons a step can stop, and the state after reset
(spec/10_state.md, spec/20_memory.md R31, R32, spec/70_reset_and_hazards.md R150). -/

namespace Sys2Proof.Machine

/-- What stands on the input port at one presentation (R31), with the hardware reset signal beside it (R150, R151). -/
structure InPort where
  /-- The hardware reset is asserted (R150); it beats whatever is presented (R136). -/
  hwReset : Bool
  /-- `IN_VALID`: an operation is presented. -/
  inValid : Bool
  /-- `IN_START`. -/
  inStart : Bool
  /-- `IN_END`. -/
  inEnd : Bool
  /-- `IN_PIX[7:0]`. -/
  inPix : Byte
  deriving DecidableEq, Repr

/-- The state: the block's two registers, its output port, and the records of the two streams it stands between. -/
structure State where
  /-- `SR[7:0]`, the shift register, right-aligned (R10). -/
  sr : Byte
  /-- `CNT[2:0]`, bits held in the current group (R11). -/
  cnt : Count
  /-- `OUT_VALID` (R32). -/
  outValid : Bool
  /-- `OUT_BYTE[7:0]`, valid when `OUT_VALID = 1` (R32); a free value otherwise (R24). -/
  outByte : Byte
  /-- `OUT_TOK`, a list of character codes, valid when `OUT_VALID = 1` (R32); a free value otherwise (R24). -/
  outTok : List Byte
  /-- What the upstream collaborator will present, next first (R31). The upstream's, not the block's (R15); log entry 1. -/
  input : List InPort
  /-- `OUT`, every byte emitted, in order: a history, not state of the block (R15, R32). -/
  out : List Byte
  /-- MODEL'S OWN: where in `out` the run in progress begins (R22, R73, D25); log entry 3. -/
  runStart : Nat
  /-- MODEL'S OWN: the output lists of the runs that an `END` closed, oldest first (R22, R73, D25); log entry 3. -/
  runs : List (List Byte)
  /-- MODEL'S OWN: how many free values have been drawn; log entry 4. -/
  freeCount : Nat
  deriving DecidableEq, Repr

/-- Why the machine would stop with a fault: never. 'The block raises no exception, ever' (spec/60_exceptions.md R130),
so the type has no constructor; nothing raises one, and that is exact. -/
inductive Fault where
  deriving DecidableEq, Repr

/-- Why the model would give an instruction no meaning. -/
inductive Refusal where
  /-- The host's constructor for an instruction without a meaning. No arm of `exec` answers it; safe. -/
  | notModelled (mnemonic : String)
  deriving DecidableEq, Repr

/-- The machine right after the hardware reset (R20, R24, R150): `SR = 0`, `CNT = 0`, nothing emitted; the two data
outputs are unspecified while `OUT_VALID = 0`, the first free values (log entry 4). Nothing is presented (log entry 1)
and the histories are empty (log entry 3). -/
def State.reset : State where
  sr := 0
  cnt := 0
  outValid := false
  outByte := Config.freeOutByte 0
  outTok := Config.freeOutTok 0
  input := []
  out := []
  runStart := 0
  runs := []
  freeCount := 1

/-- The machine at power-on, before the first reset or `START`: every register and output unspecified (R21, R24, U6;
log entry 6). What the first idle period makes of `OUT_VALID` is log entry 19. -/
def State.powerOn : State where
  sr := Config.powerOnSr
  cnt := Config.powerOnCnt
  outValid := Config.powerOnOutValid
  outByte := Config.powerOnOutByte
  outTok := Config.powerOnOutTok
  input := []
  out := []
  runStart := 0
  runs := []
  freeCount := 0

end Sys2Proof.Machine
end

