-- ==== Sys2Proof/Machine/Ops.lean ====
section
/-! DEFINITION. The named operations the meanings share: the two registers, the output port and the output history
(spec/10_state.md R14, spec/20_memory.md R32, spec/42_pack_emit.md R100, R101, spec/70_reset_and_hazards.md R150).

TAKING AN EXCEPTION and the return from one have no operation here because the hardware has neither: nothing is raised
(spec/60_exceptions.md R130), there is no trap entry (R137) and no trap return (R138). There is no memory either
(spec/20_memory.md R30). -/

namespace Sys2Proof.Machine

/-- `OutEmit(b)`: append to `OUT` and present the byte and its token in this step (R32). -/
def outEmit (b : Byte) (s : State) : State :=
  { s with out := s.out ++ [b], outValid := true, outByte := b, outTok := hexToken b }

/-- A step that does not call `OutEmit`: `OUT_VALID = 0` (R32), and the two data outputs are unspecified, a fresh pair
of free values (R24, D26; log entry 4). -/
def outNone (s : State) : State :=
  { s with
    outValid := false
    outByte := Config.freeOutByte s.freeCount
    outTok := Config.freeOutTok s.freeCount
    freeCount := s.freeCount + 1 }

/-- `SR <- 0x00`, `CNT <- 0` (R14): the accumulator is empty, the start state (R20). -/
def clearAcc (s : State) : State := { s with sr := 0, cnt := 0 }

/-- `{SR[6:0], b}`: the bit enters at the least significant end (R100). -/
def shiftIn (sr : Byte) (b : Bool) : Byte := sr.extractLsb' 0 7 ++ BitVec.ofBool b

/-- `push`: below seven held bits, shift in and count (R100); at seven, form the byte, emit it and clear both registers,
all in this one step (R101, R135, D7). -/
def push (b : Bool) (s : State) : State :=
  if completesGroup s.cnt then clearAcc (outEmit (shiftIn s.sr b) s)
  else outNone { s with sr := shiftIn s.sr b, cnt := s.cnt + 1 }

/-- A run begins here: the registers are cleared, and the output of the run starts empty (R22, R70, R73). The bytes
already emitted stay emitted (R151; log entry 7). -/
def beginRun (s : State) : State := { clearAcc s with runStart := s.out.length }

/-- The output of the run in progress: what was emitted since its start (R73). -/
def State.runOut (s : State) : List Byte := s.out.drop s.runStart

/-- The run in progress is over and its output list is complete (R73, D25). -/
def closeRun (s : State) : State := { s with runs := s.runs ++ [s.runOut] }

/-- The hardware reset: the effect of `START` on `SR` and `CNT`, and nothing is emitted (R71, R150, D9, D11). -/
def hardwareReset (s : State) : State := outNone (beginRun s)

/-- No operation is presented: the state holds and nothing is emitted (R31, R142); `OUT_VALID = 0` is read from R32
(DEDUCED, log entry 2). Before any reset `OUT_VALID` is unspecified (R24); that an idle period makes it 0 then too is the
model's choice (DESIGN CHOICE, log entry 19; unsafe for that time). -/
def idle (s : State) : State := outNone s

/-- What the step that led here emitted, in the form of R8: `none` or `some b`. -/
def State.emission (s : State) : Option Byte := if s.outValid then some s.outByte else none

/-- The token stream, `map(HexToken, OUT)` (R32, R114). -/
def State.tokens (s : State) : List (List Byte) := s.out.map hexToken

end Sys2Proof.Machine
end

