-- ==== Sys2Proof/Machine/Binarizer.lean ====
section
/-! DEFINITION. The three pixel operations (spec/41_binarizer.md). -/

namespace Sys2Proof.Machine

/-- `PUSH0`: a black pixel accumulates bit 0 (R87). -/
def execPush0 (s : State) : Host.Outcome State Fault Refusal := .next (push false s)

/-- `PUSH1`: a white pixel accumulates bit 1 (R88). -/
def execPush1 (s : State) : Host.Outcome State Fault Refusal := .next (push true s)

/-- `SKIP v`: no register is written and nothing is emitted, whatever `v` (R89). -/
def execSkip (_v : Byte) (s : State) : Host.Outcome State Fault Refusal := .next (outNone s)

end Sys2Proof.Machine
end

