-- ==== Sys2Proof/Machine/StreamControl.lean ====
section
/-! DEFINITION. The stream control operations `START` and `END` (spec/40_stream_control.md). -/

namespace Sys2Proof.Machine

/-- `START`: clear the accumulator and begin a run; pending bits are discarded, nothing is emitted (R70, D11). -/
def execStart (s : State) : Host.Outcome State Fault Refusal := .next (outNone (beginRun s))

/-- `END`: the run is over; the pending bits are discarded, not padded and not emitted, and the state is the start
state (R72, R73). -/
def execEnd (s : State) : Host.Outcome State Fault Refusal := .next (outNone (beginRun (closeRun s)))

end Sys2Proof.Machine
end

