-- ==== Sys2Proof/Syntax.lean ====
section
/-! DEFINITION. The five operations of spec/opcode_table.json, the three pixel classes and the pseudo-operations. -/

namespace Sys2Proof

/-- One constructor per row of spec/opcode_table.json. -/
inductive Instr where
  /-- `START`: begin a run (spec/40_stream_control.md R70). -/
  | start
  /-- `END`: end of input (R72); `end` is a word of Lean. -/
  | endInput
  /-- `PUSH0`: a black pixel (spec/41_binarizer.md R87). -/
  | push0
  /-- `PUSH1`: a white pixel (R88). -/
  | push1
  /-- `SKIP v`: an unclassified pixel of intensity `v` (R89). -/
  | skip (v : Byte)
  deriving DecidableEq, Repr

/-- The three classes of the binarizer (spec/41_binarizer.md R85). -/
inductive PixelClass where
  | black0
  | white1
  | other
  deriving DecidableEq, Repr

/-- The pseudo-operations of spec/30_encoding.md R65. -/
inductive Pseudo where
  | pix (v : Byte)
  | black
  | white
  | encode (vs : List Byte)
  | nop
  deriving DecidableEq, Repr

end Sys2Proof
end

