-- ==== Sys2Proof/Machine/Dispatch.lean ====
section
/-! DEFINITION. One arm per row of spec/opcode_table.json. -/

namespace Sys2Proof.Machine

def exec (i : Instr) (s : State) : Host.Outcome State Fault Refusal :=
  match i with
  | .start => Sys2Proof.Machine.execStart s
  | .endInput => Sys2Proof.Machine.execEnd s
  | .push0 => Sys2Proof.Machine.execPush0 s
  | .push1 => Sys2Proof.Machine.execPush1 s
  | .skip v => Sys2Proof.Machine.execSkip v s

end Sys2Proof.Machine
end

