-- ==== Sys2Proof/Machine/Operands.lean ====
section
/-! DEFINITION. The one operand of the hardware, the intensity, and the bit it yields: the binarizer
(spec/41_binarizer.md R85, spec/30_encoding.md R51, R57, R61). -/

namespace Sys2Proof.Machine

/-- `classify` on the 8-bit field `PIX`: two equality tests, no threshold (R85, R90). -/
def classify (v : Byte) : PixelClass :=
  if v = Config.black then .black0
  else if v = Config.white then .white1
  else .other

/-- `classify` on an unbounded intensity: every value other than 0 and 255 is `OTHER`, with no reduction modulo 256
(R61, D12). The port itself carries 8 bits only. -/
def classifyInt (v : Int) : PixelClass :=
  if v = 0 then .black0
  else if v = 255 then .white1
  else .other

/-- The bit a class accumulates, if any (R51, R57, R91). -/
def bitOfClass : PixelClass → Option Bool
  | .black0 => some false
  | .white1 => some true
  | .other => none

end Sys2Proof.Machine
end

