-- ==== Sys2Proof/WellFormed.lean ====
section
/-! DEFINITION. Which terms of `Instr` are operations: the operand of `SKIP` is an intensity that is neither black nor
white (spec/30_encoding.md R59 `exclude`, spec/41_binarizer.md R89). -/

namespace Sys2Proof

/-- The one check: `SKIP v` has `v` in 1 to 254. The other four operations have no operand. -/
def Instr.wf : Instr → Bool
  | .start => true
  | .endInput => true
  | .push0 => true
  | .push1 => true
  | .skip v => v != Config.black && v != Config.white

end Sys2Proof
end

