-- ==== Sys2Proof/Decode.lean ====
section
/-! DEFINITION. The decoder of the 10-bit operation word (spec/30_encoding.md R50), the same decoder read off the rows
of spec/opcode_table.json (R59), the encoder to canonical words (R50, R63), mnemonics and pseudo-operations (R63 to
R65). -/

namespace Sys2Proof

/-- The field `PIX`, `W[7:0]` (R50). -/
def OpWord.pix (w : OpWord) : Byte := w.extractLsb' 0 8

/-- The operation of a pixel word of intensity `v` (R50, R51; the pseudo-operation `PIX v` of R65). -/
def Instr.ofPix (v : Byte) : Instr :=
  match Machine.classify v with
  | .black0 => .push0
  | .white1 => .push1
  | .other => .skip v

/-- The operation for an intensity of a wider type: what the port cannot carry is skipped (R61, D12); a skipped value
outside 0 to 255 is written as the `NOP` of R65, any `SKIP` having the same effect. -/
def Instr.ofIntensity (v : Int) : Instr :=
  match Machine.classifyInt v with
  | .black0 => .push0
  | .white1 => .push1
  | .other => if 0 < v ∧ v < 255 then .skip (BitVec.ofInt 8 v) else .skip 128

/-- `decode(W)`: by priority, first match wins, total (R50). -/
def decode (w : OpWord) : Instr :=
  if w.getLsbD 9 then .start
  else if w.getLsbD 8 then .endInput
  else Instr.ofPix (OpWord.pix w)

/-- Why a number is rejected by the decoder of numbers. -/
inductive DecodeError where
  /-- The number needs more than the ten lines of the port, so it is no operation word (R50, D23). Safe. -/
  | widerThanPort
  deriving DecidableEq, Repr

/-- The operation word whose bits are those of `n` below `nbits`, if the port can carry it. -/
def portWord (nbits n : Nat) : Except DecodeError OpWord :=
  if n % 2 ^ nbits < 1024 then .ok (BitVec.ofNat 10 (n % 2 ^ nbits)) else .error .widerThanPort

/-- The decoder on numbers: total, rejecting by name. -/
def decodeNat (nbits n : Nat) : Except DecodeError Instr :=
  match portWord nbits n with
  | .ok w => .ok (decode w)
  | .error e => .error e

/-- The instruction the decoder reads from the table's numbering of an operation word (log entry 8). -/
def decodeTableWord (nbits w : Nat) : Option Instr :=
  match decodeNat nbits w with
  | .ok i => some i
  | .error _ => none

/-- One row of the opcode map (R59): `W & mask == bits`, less the excluded values of `PIX`. -/
structure OpRow where
  mnemonic : String
  mask : OpWord
  bits : OpWord
  exclude : List Byte
  canonical : OpWord
  words : Nat
  deriving DecidableEq, Repr

/-- The rows in priority order (R59; spec/opcode_table.json). `canonical` of the last row is its smallest word; its
operand stands in the word. -/
def opRows : List OpRow :=
  [ ⟨"START", 0x200, 0x200, [], 0x200, 512⟩,
    ⟨"END", 0x300, 0x100, [], 0x100, 256⟩,
    ⟨"PUSH0", 0x3FF, 0x000, [], 0x000, 1⟩,
    ⟨"PUSH1", 0x3FF, 0x0FF, [], 0x0FF, 1⟩,
    ⟨"SKIP", 0x300, 0x000, [0x00, 0xFF], 0x001, 254⟩ ]

/-- Whether a word selects a row by the row's own mask, match and exclusion (R59). -/
def OpRow.selects (r : OpRow) (w : OpWord) : Bool :=
  (w &&& r.mask) == r.bits && !(r.exclude.contains (OpWord.pix w))

/-- A decoder written from the table alone: the first row that matches (R59). It answers the row's mnemonic. -/
def rowOf (w : OpWord) : Option String :=
  (opRows.find? (fun r => (w &&& r.mask) == r.bits)).map OpRow.mnemonic

/-- The mnemonic of an operation (R63), as spec/opcode_table.json spells it. -/
def Instr.mnemonic : Instr → String
  | .start => "START"
  | .endInput => "END"
  | .push0 => "PUSH0"
  | .push1 => "PUSH1"
  | .skip _ => "SKIP"

/-- Program text of one operation (R63). -/
def Instr.text : Instr → String
  | .skip v => "SKIP " ++ toString v.toNat
  | i => i.mnemonic

/-- Program text of a list of operations, separated by `;` (R64). -/
def programText (is : List Instr) : String := "; ".intercalate (is.map Instr.text)

/-- The canonical word of an operation (R50, R63). -/
def encode : Instr → OpWord
  | .start => 0x200
  | .endInput => 0x100
  | .push0 => 0x000
  | .push1 => 0x0FF
  | .skip v => v.zeroExtend 10

/-- The expansions of R65. -/
def Pseudo.expand : Pseudo → List Instr
  | .pix v => [Instr.ofPix v]
  | .black => [.push0]
  | .white => [.push1]
  | .encode vs => .start :: (vs.map Instr.ofPix ++ [.endInput])
  | .nop => [.skip 128]

end Sys2Proof
end

