-- ==== Sys2Proof/Machine/Fetch.lean ====
section
/-! DEFINITION. Taking the next presentation from the input port (spec/20_memory.md R31; there is no instruction fetch,
spec/10_state.md R16). -/

namespace Sys2Proof.Machine

/-- `W[9:0] = {IN_START, IN_END, IN_PIX[7:0]}` (R31). -/
def InPort.word (p : InPort) : OpWord :=
  BitVec.ofBool p.inStart ++ (BitVec.ofBool p.inEnd ++ p.inPix)

/-- The lines of the port when the word `w` is presented with `IN_VALID = 1` (R31). -/
def InPort.ofWord (w : OpWord) : InPort where
  hwReset := false
  inValid := true
  inStart := w.getLsbD 9
  inEnd := w.getLsbD 8
  inPix := OpWord.pix w

/-- The lines of the port with nothing presented, `IN_VALID = 0` (R31); what the other lines then carry is ignored. -/
def InPort.quiet : InPort where
  hwReset := false
  inValid := false
  inStart := false
  inEnd := false
  inPix := 0

/-- The port while the hardware reset is asserted and nothing is presented (R150). -/
def InPort.resetPulse : InPort := { InPort.quiet with hwReset := true }

/-- What the block finds at its input port. -/
inductive Presented where
  | nothing
  | hardwareReset
  | operation (w : OpWord)
  deriving DecidableEq, Repr

/-- What the lines of the port amount to: the reset beats every operation (R136, R151), and without `IN_VALID` there is
none (R31). -/
def InPort.presented (p : InPort) : Presented :=
  if p.hwReset then .hardwareReset
  else if p.inValid then .operation p.word
  else .nothing

/-- Take the next presentation; it is seen once and is gone (R31). Past the end of the stream nothing is presented
(log entry 2). -/
def takeInput (s : State) : Presented × State :=
  match s.input with
  | [] => (.nothing, s)
  | p :: rest => (p.presented, { s with input := rest })

/-- Put an operation word before everything the upstream will present. -/
def presentWord (w : OpWord) (s : State) : State := { s with input := InPort.ofWord w :: s.input }

/-- Put the word whose bits are those of `n` below `nbits` before everything the upstream will present; a number the
port cannot carry is not presented (log entry 8). -/
def presentTableWord (nbits n : Nat) (s : State) : State :=
  match portWord nbits n with
  | .ok w => presentWord w s
  | .error _ => s

/-- The presentations of a list of operations, by canonical words (R50, R63). -/
def presentations (is : List Instr) : List InPort := is.map (fun i => InPort.ofWord (encode i))

end Sys2Proof.Machine
end

