-- ==== Sys2Proof/Machine/Step.lean ====
section
/-! DEFINITION. One step: one presentation on the input port (spec/00_scope.md R8, spec/20_memory.md R31, R40, R42). -/

namespace Sys2Proof.Machine

/-- Take the next presentation: with the hardware reset asserted the block is reset, with an operation presented it is
decoded and executed, with nothing presented the state holds. -/
def step (s : State) : Host.Outcome State Fault Refusal :=
  match takeInput s with
  | (.nothing, s') => .next (idle s')
  | (.hardwareReset, s') => .next (hardwareReset s')
  | (.operation w, s') => exec (decode w) s'

/-- The state in which the very next step runs the operation word of the table's numbering (log entries 1 and 8). -/
def State.withFetchWord (s : State) (nbits w : Nat) : State := presentTableWord nbits w s

end Sys2Proof.Machine
end

