-- ==== Sys2Proof/Machine/Accumulator.lean ====
section
/-! DEFINITION. The abstract view of the two registers: the source's list of bits `ACC`, first-accumulated bit first
(spec/10_state.md R12), and a list of bits read as a base-2 number (spec/30_encoding.md R58). -/

namespace Sys2Proof.Machine

/-- `[SR[n-1], ..., SR[0]]`. -/
def accBits (sr : Byte) : Nat → List Bool
  | 0 => []
  | n + 1 => sr.getLsbD n :: accBits sr n

/-- `ACC = [SR[CNT-1], SR[CNT-2], ..., SR[0]]` (R12). -/
def State.acc (s : State) : List Bool := accBits s.sr s.cnt.toNat

/-- Bits in order of arrival as a base-2 number, most significant first, by `byte = byte*2 + bit` (R58), on from `n`. -/
def bitsValue (n : Nat) : List Bool → Nat
  | [] => n
  | b :: bs => bitsValue (n * 2 + b.toNat) bs

end Sys2Proof.Machine
end

