-- ==== Sys2Proof/Machine/Run.lean ====
section
/-! DEFINITION. The whole run: `encode` by the step function (spec/40_stream_control.md R74) and its closed form over
the list of classified bits (R74, spec/20_memory.md R34, spec/42_pack_emit.md R106). -/

namespace Sys2Proof.Machine

/-- Execute operations one after another, each completely before the next (R42). -/
def runOps : List Instr → State → Host.Outcome State Fault Refusal
  | [], s => .next s
  | i :: is, s =>
    match exec i s with
    | .next t => runOps is t
    | .fault r => .fault r
    | .refused r => .refused r

/-- The operations of one run over intensities: `START`, one pixel operation each, `END` (R65, R74). -/
def runOperations (vs : List Int) : List Instr :=
  .start :: (vs.map Instr.ofIntensity ++ [.endInput])

/-- `encode_bytes` (R74): the list `OUT` of one run. -/
def encodeBytes (vs : List Int) : List Byte :=
  match runOps (runOperations vs) State.reset with
  | .next t => t.out
  | .fault _ => []
  | .refused _ => []

/-- `encode(pixels)`, the source's contract (R74): the tokens of the bytes. -/
def encodeTokens (vs : List Int) : List (List Byte) := (encodeBytes vs).map hexToken

/-- The classified bits of an input, in order: unclassified intensities deleted, 0 replaced by bit 0, 255 by bit 1
(R74). Its length is `Nc` (R75, R86). -/
def classifiedBits (vs : List Int) : List Bool := vs.filterMap (fun v => bitOfClass (classifyInt v))

/-- The push operation of a bit (R87, R88). -/
def pushOf (b : Bool) : Instr := if b then .push1 else .push0

/-- The byte of a group whose bits in order of arrival are `b1` to `b8` (R34, R106). -/
def byteOfBits (b1 b2 b3 b4 b5 b6 b7 b8 : Bool) : Byte :=
  BitVec.ofNat 8 (b1.toNat * 128 + b2.toNat * 64 + b3.toNat * 32 + b4.toNat * 16 + b5.toNat * 8 + b6.toNat * 4
    + b7.toNat * 2 + b8.toNat * 1)

/-- The bytes of consecutive non-overlapping groups of eight bits; the last one to seven bits are unused (R74, R75). -/
def bytesOfBits : List Bool → List Byte
  | b1 :: b2 :: b3 :: b4 :: b5 :: b6 :: b7 :: b8 :: rest => byteOfBits b1 b2 b3 b4 b5 b6 b7 b8 :: bytesOfBits rest
  | _ => []

end Sys2Proof.Machine
end

