-- ==== Sys2Proof/Machine/Designs.lean ====
section
/-! DEFINITION. The other designs the spec admits for the same block: the source's literal list of bits
(spec/10_state.md R12, spec/42_pack_emit.md R108), a left-aligned register (R108), and a 4-bit counter that reaches 8
with the emission as a second, internal step (R102). None is part of `step`; each is here to be proved to emit the same. -/

namespace Sys2Proof.Machine

/-- One design's answer to an operation: the state after, and the byte emitted, if any (R8). -/
abbrev DesignStep (α : Type) := α × Option Byte

/-- The source's algorithm on the list of pending bits: append, and at length 8 emit the base-2 number and empty the
list (R12, R58, R100, R101). -/
def listPush (acc : List Bool) (b : Bool) : DesignStep (List Bool) :=
  if acc.length + 1 = Config.group then ([], some (BitVec.ofNat 8 (bitsValue 0 (acc ++ [b]))))
  else (acc ++ [b], none)

/-- The source's algorithm on one operation. -/
def listStep (i : Instr) (acc : List Bool) : DesignStep (List Bool) :=
  match i with
  | .start => ([], none)
  | .endInput => ([], none)
  | .push0 => listPush acc false
  | .push1 => listPush acc true
  | .skip _ => (acc, none)

/-- The registers of the left-aligned design: the n-th bit of a group is written to bit `8 - n` (R108). -/
structure LeftRegs where
  byte : Byte
  cnt : Count
  deriving DecidableEq, Repr

/-- Write bit `7 - CNT` (R108). -/
def leftWrite (r : LeftRegs) (b : Bool) : Byte :=
  if b then r.byte ||| (0x80#8 >>> r.cnt.toNat) else r.byte

/-- The left-aligned design's push. -/
def leftPush (r : LeftRegs) (b : Bool) : DesignStep LeftRegs :=
  if r.cnt = 7 then (⟨0, 0⟩, some (leftWrite r b)) else (⟨leftWrite r b, r.cnt + 1⟩, none)

/-- The left-aligned design on one operation. -/
def leftStep (i : Instr) (r : LeftRegs) : DesignStep LeftRegs :=
  match i with
  | .start => (⟨0, 0⟩, none)
  | .endInput => (⟨0, 0⟩, none)
  | .push0 => leftPush r false
  | .push1 => leftPush r true
  | .skip _ => (r, none)

/-- The registers of the two-step design: the counter has 4 bits and may hold 8, which is not at rest (R102). -/
structure TwoPhaseRegs where
  sr : Byte
  cnt : BitVec 4
  deriving DecidableEq, Repr

/-- First phase: shift in and count, with no test (R102). -/
def twoPhaseAccept (i : Instr) (r : TwoPhaseRegs) : TwoPhaseRegs :=
  match i with
  | .start => ⟨0, 0⟩
  | .endInput => ⟨0, 0⟩
  | .push0 => ⟨shiftIn r.sr false, r.cnt + 1⟩
  | .push1 => ⟨shiftIn r.sr true, r.cnt + 1⟩
  | .skip _ => r

/-- Second phase, which runs before the next operation is consumed: 'Whenever the counter reaches 8', emit and clear
(R102). -/
def twoPhaseEmit (r : TwoPhaseRegs) : DesignStep TwoPhaseRegs :=
  if r.cnt = 8 then (⟨0, 0⟩, some r.sr) else (r, none)

/-- The two-step design on one operation, both phases. -/
def twoPhaseStep (i : Instr) (r : TwoPhaseRegs) : DesignStep TwoPhaseRegs := twoPhaseEmit (twoPhaseAccept i r)

/-- The bytes a design emits over a list of operations, in order. -/
def designEmits {α : Type} (f : Instr → α → DesignStep α) : List Instr → α → List Byte
  | [], _ => []
  | i :: is, a => (f i a).2.toList ++ designEmits f is (f i a).1

end Sys2Proof.Machine
end

