-- ==== Sys2Proof/Machine/Sink.lean ====
section
/-! DEFINITION. The downstream sink's text, OUTSIDE the block: spec/43_hex_token.md R116 records it 'for whoever models
the sink', and no rule of the block, and nothing in `step`, depends on it. -/

namespace Sys2Proof.Machine

/-- The separator, a comma and a space (R116; the two codes are from general knowledge, log entry 9). -/
def separator : List Byte := [0x2C, 0x20]

/-- `render`: every token, the last included, is followed by the separator, and nothing else is written (R116). -/
def render : List (List Byte) → List Byte
  | [] => []
  | t :: ts => t ++ separator ++ render ts

end Sys2Proof.Machine
end

