-- ==== Sys2Proof/Safety.lean ====
section
/-! DEFINITION. The terms the statements use: the start state, the invariants at rest (spec/10_state.md R13, R20), and
what an observer outside the block sees (D24). -/

namespace Sys2Proof.Machine

/-- The start state of R20: `SR = 0`, `CNT = 0`. -/
abbrev State.atStart (s : State) : Prop := s.sr = 0 ∧ s.cnt = 0

/-- The invariant at rest of R13: `SR < 2^CNT` (`CNT <= 7` is the width of the field). -/
abbrev State.accumulatorOk (s : State) : Prop := s.sr.toNat < 2 ^ s.cnt.toNat

/-- While `OUT_VALID = 1` the port shows the byte last appended to `OUT`, and its token (R32). -/
abbrev State.portOk (s : State) : Prop :=
  s.outValid = true → s.outTok = hexToken s.outByte ∧ s.out.getLast? = some s.outByte

/-- The run in progress begins inside the history (the model's own field, log entry 3). -/
abbrev State.historyOk (s : State) : Prop := s.runStart ≤ s.out.length

/-- What every step keeps. -/
abbrev State.Inv (s : State) : Prop := s.accumulatorOk ∧ s.portOk ∧ s.historyOk

/-- A safe stretch of `k` steps: it ends in a next state. For this block that is every stretch (R130). -/
def safeFor (k : Nat) (s : State) : Prop := ∃ t, Host.Core.run Sys2Proof.core k s = .next t

/-- What a byte-level observer has seen between `s` and a later state `t`: the bytes emitted in between (D24). -/
def emittedBetween (s t : State) : List Byte := t.out.drop s.out.length

/-- Whether a presentation is the hardware reset or an operation other than a pixel: the ones that leave the start
state from any state, an unspecified one included (R152). -/
def InPort.delimits (p : InPort) : Bool :=
  match p.presented with
  | .nothing => false
  | .hardwareReset => true
  | .operation w => decode w == .start || decode w == .endInput

/-- Whether a presentation can change anything an observer sees: not an idle one (R142), not a `SKIP` (R41, R79). -/
def InPort.matters (p : InPort) : Bool :=
  match p.presented with
  | .nothing => false
  | .hardwareReset => true
  | .operation w =>
    match decode w with
    | .skip _ => false
    | .start => true
    | .endInput => true
    | .push0 => true
    | .push1 => true

/-- `OUT` is `base` and then the bytes of the whole groups of `bits`; `ACC` is the rest of `bits` (R11, R12, R74, R105). -/
abbrev State.holdsBits (s : State) (base : List Byte) (bits : List Bool) : Prop :=
  s.out = base ++ bytesOfBits bits ∧ s.acc = bits.drop (8 * (bits.length / 8)) ∧
  s.cnt.toNat = bits.length % 8 ∧ s.accumulatorOk

/-- The classified bits of the run after one more presentation: an operation that delimits runs and the hardware reset
begin with none (R20), a pixel adds the bit of its class, if any (R86). -/
def bitsAfter (p : Presented) (bits : List Bool) : List Bool :=
  match p with
  | .nothing => bits
  | .hardwareReset => []
  | .operation w =>
    match decode w with
    | .start => []
    | .endInput => []
    | .push0 => bits ++ [false]
    | .push1 => bits ++ [true]
    | .skip _ => bits

/-- What `OUT` held when those bits began, after one more presentation: it moves on, to the bytes emitted so far, just
where the bits begin anew. -/
def baseAfter (p : Presented) (base : List Byte) (bits : List Bool) : List Byte :=
  match p with
  | .nothing => base
  | .hardwareReset => base ++ bytesOfBits bits
  | .operation w =>
    match decode w with
    | .start => base ++ bytesOfBits bits
    | .endInput => base ++ bytesOfBits bits
    | .push0 => base
    | .push1 => base
    | .skip _ => base

/-- The two-step design at rest holds the machine's registers, the counter one bit wider (R102). -/
abbrev TwoPhaseRegs.tracks (r : TwoPhaseRegs) (s : State) : Prop := r.sr = s.sr ∧ r.cnt = s.cnt.zeroExtend 4

/-- The left-aligned design at rest holds the same bits at the other end of the byte (R108). -/
abbrev LeftRegs.tracks (r : LeftRegs) (s : State) : Prop := r.cnt = s.cnt ∧ r.byte = s.sr <<< (8 - s.cnt.toNat)

end Sys2Proof.Machine
end

