-- ==== Sys2Proof/Certificates/Slice0/Obligations.lean ====
section
/-! DEFINITION. The statements for the provers, from the numbered rules of spec/. OBLIGATIONS.json lists them. -/

open Sys2Proof Sys2Proof.Machine

/-- For every operation word: bit 9 set decodes to START whatever else it holds; bit 9 clear and bit 8 set
decodes to END whatever PIX holds; both clear, PIX 0x00 is PUSH0, PIX 0xFF is PUSH1 and any other PIX v is SKIP
v. [30_encoding.md section 1, 92_eei_decisions.md D2, 92_eei_decisions.md D3, 92_eei_decisions.md D27] -/
def Obligations.DecodeReadsTheControlBitsByPriority : Prop :=
  ∀ w : OpWord,
    (w.getLsbD 9 = true → decode w = .start) ∧
    (w.getLsbD 9 = false → w.getLsbD 8 = true → decode w = .endInput) ∧
    (w.getLsbD 9 = false → w.getLsbD 8 = false →
      (OpWord.pix w = 0x00 → decode w = .push0) ∧
      (OpWord.pix w = 0xFF → decode w = .push1) ∧
      (OpWord.pix w ≠ 0x00 → OpWord.pix w ≠ 0xFF → decode w = .skip (OpWord.pix w)))

/-- One or more words of every row, written out bit by bit from the format of the operation word, with ignored
bits set in some, decode to the operation they stand for (the packing is the spec's own choice D2, D3).
[30_encoding.md section 1, 95_test_vectors.md section 2.1] -/
def Obligations.WrittenOutWordsDecodeToTheirOperations : Prop :=
  decode 0b1000000000 = .start ∧ decode 0b1111111111 = .start ∧ decode 0b1100000000 = .start ∧
  decode 0b0100000000 = .endInput ∧ decode 0b0110101011 = .endInput ∧
  decode 0b0000000000 = .push0 ∧ decode 0b0011111111 = .push1 ∧
  decode 0b0000000001 = .skip 1 ∧ decode 0b0001111111 = .skip 127 ∧ decode 0b0010000000 = .skip 128 ∧
  decode 0b0011111110 = .skip 254

/-- For every well-formed operation, SKIP with every one of its 254 operands included, decode of encode is that
operation; and every word decodes to a well-formed operation (canonical words are the spec's own choice D2).
[30_encoding.md section 1, 30_encoding.md section 4, 92_eei_decisions.md D2] -/
def Obligations.EncodeThenDecodeGivesTheOperationBack : Prop :=
  (∀ i : Instr, i.wf = true → decode (encode i) = i) ∧ (∀ w : OpWord, (decode w).wf = true)

/-- For every word with both control bits clear, encode of decode is the word itself; for every word, the
canonical word decodes to the same operation. [30_encoding.md section 1] -/
def Obligations.PixelWordsAreCanonical : Prop :=
  ∀ w : OpWord,
    (w.getLsbD 9 = false → w.getLsbD 8 = false → encode (decode w) = w) ∧ decode (encode (decode w)) = decode w

/-- Counting over all 1024 operation words by the decoder: START 512, END 256, PUSH0 1, PUSH1 1, SKIP 254.
[30_encoding.md section 1, 30_encoding.md section 4, 95_test_vectors.md section 2.1] -/
def Obligations.EachOperationHasItsCountOfWords : Prop :=
  (opRows.map fun r => (((List.range 1024).map (BitVec.ofNat 10)).filter
    fun w => (decode w).mnemonic == r.mnemonic).length) = [512, 256, 1, 1, 254]

/-- For every word, the first row of the opcode table whose mask and match select it carries the mnemonic of the
decoded operation, and exactly one row selects it once the exclusion of SKIP is applied. [30_encoding.md section
4, opcode_table.json] -/
def Obligations.TableRowsAgreeWithTheDecoder : Prop :=
  ∀ w : OpWord, rowOf w = some (decode w).mnemonic ∧ (opRows.filter fun r => r.selects w).length = 1

/-- PIX v is what the word zext(v) decodes to; BLACK, WHITE and NOP are PUSH0, PUSH1 and SKIP 128; encode of a
list of intensities is START, one PIX each, END, which is the list of operations of a run over the same
intensities as integers (names are the spec's own choice D20). [30_encoding.md section 6, 92_eei_decisions.md
D20] -/
def Obligations.PseudoOperationsExpandToThePixelWords : Prop :=
  (∀ v : Byte, (Pseudo.pix v).expand = [decode (v.zeroExtend 10)]) ∧
  Pseudo.black.expand = [.push0] ∧ Pseudo.white.expand = [.push1] ∧ Pseudo.nop.expand = [.skip 128] ∧
  (∀ vs : List Byte, (Pseudo.encode vs).expand = runOperations (vs.map fun v => (v.toNat : Int)))

/-- On the 8-bit field: classify gives BLACK0 exactly for 0, WHITE1 exactly for 255, OTHER exactly for 1 to 254;
BLACK0 stands for bit 0, WHITE1 for bit 1, OTHER for no bit; it depends on nothing but the intensity. [R85] -/
def Obligations.ClassifyIsEqualityWithTheTwoConstants : Prop :=
  ∀ v : Byte,
    (classify v = .black0 ↔ v.toNat = 0) ∧ (classify v = .white1 ↔ v.toNat = 255) ∧
    (classify v = .other ↔ 1 ≤ v.toNat ∧ v.toNat ≤ 254) ∧
    bitOfClass .black0 = some false ∧ bitOfClass .white1 = some true ∧ bitOfClass .other = none

/-- For every integer: it is black exactly when it is 0 and white exactly when it is 255; every other integer,
negative or above 255 included, becomes a well-formed SKIP; on 0 to 255 the wide classification is the one of the
port and the operation is that of the pixel word. [30_encoding.md section 5, 92_eei_decisions.md D12,
90_conflicts.md C7] -/
def Obligations.WideIntensitiesAreSkippedWithoutReduction : Prop :=
  (∀ v : Int,
    (classifyInt v = .black0 ↔ v = 0) ∧ (classifyInt v = .white1 ↔ v = 255) ∧
    (v ≠ 0 → v ≠ 255 → ∃ u : Byte, Instr.ofIntensity v = .skip u ∧ (Instr.skip u).wf = true)) ∧
  (∀ v : Byte, classifyInt v.toNat = classify v ∧ Instr.ofIntensity v.toNat = decode (v.zeroExtend 10))

/-- Every word with bit 9 set is START, and its canonical word is 0x200. For every state START gives a next state
with SR = 0, CNT = 0, OUT_VALID = 0 and OUT unchanged. That START exists as a word, and what it does with bits
pending, are the spec's own choices D2, D3, D11. [40_stream_control.md section 1, 92_eei_decisions.md D3,
92_eei_decisions.md D11] -/
def Obligations.StartClearsTheAccumulatorAndEmitsNothing : Prop :=
  (∀ w : OpWord, w.getLsbD 9 = true → decode w = .start) ∧ encode .start = 0x200 ∧
  ∀ s : State, ∃ t, exec .start s = .next t ∧
    t.sr = 0 ∧ t.cnt = 0 ∧ t.outValid = false ∧ t.emission = none ∧ t.out = s.out

/-- Every word with W[9:8] = 01 is END whatever PIX is, canonical word 0x100. For every state, whatever CNT was,
END gives a next state with SR = 0, CNT = 0, OUT_VALID = 0 and OUT unchanged: the pending bits are neither padded
nor emitted. A second END changes neither register nor OUT. [R72] -/
def Obligations.EndDiscardsThePartialGroup : Prop :=
  (∀ w : OpWord, w.getLsbD 9 = false → w.getLsbD 8 = true → decode w = .endInput) ∧ encode .endInput = 0x100 ∧
  ∀ s : State, ∃ t, exec .endInput s = .next t ∧
    t.sr = 0 ∧ t.cnt = 0 ∧ t.outValid = false ∧ t.emission = none ∧ t.out = s.out ∧
    ∃ u, exec .endInput t = .next u ∧ u.sr = t.sr ∧ u.cnt = t.cnt ∧ u.out = t.out ∧ u.emission = none

/-- PUSH0 is the word 0x000 and no other. For every state it completes: with CNT below 7, SR becomes the 8 bits
SR[6:0],0, CNT counts up by one and nothing is emitted; with CNT = 7 the byte SR[6:0],0 is appended to OUT and
stands on the port with its token, it is even, and SR and CNT are cleared. From the start state PUSH0 leaves SR =
0 and makes CNT = 1. Eight PUSH0 from the start state emit the byte 0x00, and its token stands on the port. [R87] -/
def Obligations.Push0ShiftsInAZeroOrCompletesTheByte : Prop :=
  (∀ w : OpWord, decode w = .push0 ↔ w = 0x000) ∧ encode .push0 = 0x000 ∧
  (∀ s : State, ∃ t, exec .push0 s = .next t ∧
    (s.cnt.toNat < 7 →
      t.sr = s.sr.extractLsb' 0 7 ++ 0#1 ∧ t.cnt.toNat = s.cnt.toNat + 1 ∧
      t.outValid = false ∧ t.emission = none ∧ t.out = s.out) ∧
    (s.cnt.toNat = 7 →
      t.sr = 0 ∧ t.cnt = 0 ∧ t.outValid = true ∧ t.outByte = s.sr.extractLsb' 0 7 ++ 0#1 ∧
      t.outByte.getLsbD 0 = false ∧ t.outTok = hexToken t.outByte ∧ t.emission = some t.outByte ∧
      t.out = s.out ++ [t.outByte])) ∧
  (∀ s : State, s.atStart → ∃ t, runOps (List.replicate 8 .push0) s = .next t ∧
    t.out = s.out ++ [0x00] ∧ t.outTok = hexToken 0x00) ∧
  (∀ s : State, s.atStart → ∃ t, exec .push0 s = .next t ∧ t.sr = 0 ∧ t.cnt = 1)

/-- PUSH1 is the word 0x0FF and no other. For every state it completes: with CNT below 7, SR becomes the 8 bits
SR[6:0],1, CNT counts up by one and nothing is emitted; with CNT = 7 the byte SR[6:0],1 is appended to OUT and
stands on the port with its token, it is odd, and SR and CNT are cleared. Eight PUSH1 from the start state emit
the byte 0xFF, and its token stands on the port. Seven PUSH0 then one PUSH1 emit 0x01 with its token. [R88] -/
def Obligations.Push1ShiftsInAOneOrCompletesTheByte : Prop :=
  (∀ w : OpWord, decode w = .push1 ↔ w = 0x0FF) ∧ encode .push1 = 0x0FF ∧
  (∀ s : State, ∃ t, exec .push1 s = .next t ∧
    (s.cnt.toNat < 7 →
      t.sr = s.sr.extractLsb' 0 7 ++ 1#1 ∧ t.cnt.toNat = s.cnt.toNat + 1 ∧
      t.outValid = false ∧ t.emission = none ∧ t.out = s.out) ∧
    (s.cnt.toNat = 7 →
      t.sr = 0 ∧ t.cnt = 0 ∧ t.outValid = true ∧ t.outByte = s.sr.extractLsb' 0 7 ++ 1#1 ∧
      t.outByte.getLsbD 0 = true ∧ t.outTok = hexToken t.outByte ∧ t.emission = some t.outByte ∧
      t.out = s.out ++ [t.outByte])) ∧
  (∀ s : State, s.atStart → ∃ t, runOps (List.replicate 8 .push1) s = .next t ∧
    t.out = s.out ++ [0xFF] ∧ t.outTok = hexToken 0xFF) ∧
  (∀ s : State, s.atStart → ∃ t, runOps (List.replicate 7 .push0 ++ [.push1]) s = .next t ∧
    t.out = s.out ++ [0x01] ∧ t.outTok = hexToken 0x01)

/-- For every v in 1 to 254 the pixel word zext(v) is SKIP v. For every state and every such v SKIP v gives a
next state with SR, CNT and OUT unchanged and OUT_VALID = 0, at every value of CNT, 7 included; after it, any
push does to SR, CNT and OUT what it would have done before. [R89] -/
def Obligations.SkipChangesNeitherRegisterNorOutput : Prop :=
  (∀ v : Byte, 1 ≤ v.toNat → v.toNat ≤ 254 → decode (v.zeroExtend 10) = .skip v ∧ encode (.skip v) = v.zeroExtend 10) ∧
  ∀ (v : Byte) (s : State), 1 ≤ v.toNat → v.toNat ≤ 254 → ∃ t, exec (.skip v) s = .next t ∧
    t.sr = s.sr ∧ t.cnt = s.cnt ∧ t.outValid = false ∧ t.emission = none ∧ t.out = s.out ∧
    ∀ b : Bool, (push b t).sr = (push b s).sr ∧ (push b t).cnt = (push b s).cnt ∧ (push b t).out = (push b s).out

/-- For every state with CNT in 0 to 6 and every bit b: SR becomes SR[6:0],b, which is (SR*2 + b) mod 256, CNT
counts up by one, nothing is emitted, and in the abstract view ACC becomes ACC ++ [b]. [R100] -/
def Obligations.PushBelowSevenAppendsToTheAccumulator : Prop :=
  ∀ (s : State) (b : Bool), s.cnt.toNat < 7 →
    (push b s).sr = s.sr.extractLsb' 0 7 ++ BitVec.ofBool b ∧
    (push b s).sr.toNat = (s.sr.toNat * 2 + b.toNat) % 256 ∧
    (push b s).cnt.toNat = s.cnt.toNat + 1 ∧
    (push b s).out = s.out ∧ (push b s).emission = none ∧
    (push b s).acc = s.acc ++ [b]

/-- For every state with CNT = 7 and every bit b: the byte emitted is SR[6:0],b, whose value is the base-2 number
of the seven pending bits and b, the first most significant; it and its token stand on the port, it is appended
to OUT once, and SR and CNT are 0. Every byte value is emitted from some state at rest. [R101] -/
def Obligations.PushAtSevenEmitsAllEightBits : Prop :=
  (∀ (s : State) (b : Bool), s.cnt.toNat = 7 →
    (push b s).emission = some (s.sr.extractLsb' 0 7 ++ BitVec.ofBool b) ∧
    (push b s).outByte.toNat = bitsValue 0 (s.acc ++ [b]) ∧
    (push b s).outTok = hexToken (push b s).outByte ∧
    (push b s).out = s.out ++ [(push b s).outByte] ∧
    (push b s).sr = 0 ∧ (push b s).cnt = 0 ∧ (push b s).acc = []) ∧
  (∀ v : Byte, ∃ (s : State) (b : Bool), s.accumulatorOk ∧ s.cnt.toNat = 7 ∧ (push b s).emission = some v)

/-- Every operation completes from every state, and: a push moves CNT from n in 0 to 6 to n+1 with no output and
from 7 to 0 with one byte; SKIP leaves CNT and outputs nothing; START and END make CNT 0 and output nothing.
[42_pack_emit.md section 3] -/
def Obligations.CounterMovesAsTheTransitionTableSays : Prop :=
  ∀ (i : Instr) (s : State), ∃ t, exec i s = .next t ∧
    match i with
    | .start => t.cnt = 0 ∧ t.emission = none
    | .endInput => t.cnt = 0 ∧ t.emission = none
    | .skip _ => t.cnt = s.cnt ∧ t.emission = none
    | .push0 => if s.cnt.toNat < 7 then t.cnt.toNat = s.cnt.toNat + 1 ∧ t.emission = none
        else t.cnt = 0 ∧ ∃ b, t.emission = some b ∧ t.out = s.out ++ [b]
    | .push1 => if s.cnt.toNat < 7 then t.cnt.toNat = s.cnt.toNat + 1 ∧ t.emission = none
        else t.cnt = 0 ∧ ∃ b, t.emission = some b ∧ t.out = s.out ++ [b]

/-- Whenever an operation gives a next state: either OUT is unchanged and OUT_VALID = 0, or the operation is
PUSH0 or PUSH1 with CNT = 7, OUT has grown by exactly that byte, and the port shows the byte and its token.
[20_memory.md section 1, 20_memory.md section 5, 42_pack_emit.md section 2] -/
def Obligations.OnlyTheEighthPushEmits : Prop :=
  ∀ (i : Instr) (s t : State), exec i s = .next t →
    (t.out = s.out ∧ t.outValid = false) ∨
    (∃ b : Bool, i = pushOf b ∧ s.cnt.toNat = 7 ∧ t.out = s.out ++ [shiftIn s.sr b] ∧
      t.outValid = true ∧ t.outByte = shiftIn s.sr b ∧ t.outTok = hexToken (shiftIn s.sr b))

/-- Whenever an operation gives a next state: what the upstream will present is unchanged; pixel operations leave
the run's beginning and the list of closed runs unchanged; START sets the run's beginning to the end of OUT and
leaves the closed runs; END appends what was emitted since the run's beginning to the closed runs and begins the
next. These fields are the model's own (log entries 1, 3, 7). [10_state.md section 3, 40_stream_control.md
section 2, 92_eei_decisions.md D25] -/
def Obligations.OnlyStartAndEndMoveTheRunRecords : Prop :=
  ∀ (i : Instr) (s t : State), exec i s = .next t →
    t.input = s.input ∧
    (i = .start → t.runStart = s.out.length ∧ t.runs = s.runs) ∧
    (i = .endInput → t.runStart = s.out.length ∧ t.runs = s.runs ++ [s.out.drop s.runStart]) ∧
    (i ≠ .start → i ≠ .endInput → t.runStart = s.runStart ∧ t.runs = s.runs)

/-- Whenever an operation gives a next state, and whenever a step does, an idle presentation, the end of the
stream and the hardware reset included: with OUT_VALID = 0 after it, OUT_BYTE and OUT_TOK are the next free
values and the count of drawn values has advanced by one; with OUT_VALID = 1 after it the count is unchanged.
Nothing is said of the values themselves (the model's form, log entry 4). [10_state.md section 3,
92_eei_decisions.md D26] -/
def Obligations.DataOutputsAreFreeWhileNothingIsEmitted : Prop :=
  (∀ (i : Instr) (s t : State), exec i s = .next t →
    (t.outValid = false → t.outByte = Config.freeOutByte s.freeCount ∧ t.outTok = Config.freeOutTok s.freeCount ∧
      t.freeCount = s.freeCount + 1) ∧
    (t.outValid = true → t.freeCount = s.freeCount)) ∧
  (∀ s t : State, step s = .next t →
    (t.outValid = false → t.outByte = Config.freeOutByte s.freeCount ∧ t.outTok = Config.freeOutTok s.freeCount ∧
      t.freeCount = s.freeCount + 1) ∧
    (t.outValid = true → t.freeCount = s.freeCount))

/-- When the next presentation has no reset and IN_VALID = 1, the operation word has IN_START in bit 9, IN_END in
bit 8 and IN_PIX in bits 7 to 0, and step is exec of the decoded word, which is well-formed, on the state with
that presentation consumed and the rest of the stream in place. In terms of the lines themselves: with IN_START
the operation is START; without it and with IN_END it is END; with neither it is the pixel operation of IN_PIX.
The port and its packing are the spec's own choices D2 and D3; that the stream is a field of State is log entry
1. [20_memory.md section 1, 00_scope.md section 5, 92_eei_decisions.md D2, 92_eei_decisions.md D3] -/
def Obligations.StepRunsThePresentedOperation : Prop :=
  ∀ (s : State) (p : InPort) (rest : List InPort), s.input = p :: rest → p.hwReset = false → p.inValid = true →
    p.word.getLsbD 9 = p.inStart ∧ p.word.getLsbD 8 = p.inEnd ∧ OpWord.pix p.word = p.inPix ∧
    (decode p.word).wf = true ∧ step s = exec (decode p.word) { s with input := rest } ∧
    (p.inStart = true → step s = exec .start { s with input := rest }) ∧
    (p.inStart = false → p.inEnd = true → step s = exec .endInput { s with input := rest }) ∧
    (p.inStart = false → p.inEnd = false → step s = exec (Instr.ofPix p.inPix) { s with input := rest })

/-- For every number whose bits below nbits make an operation word (a number below 1024; log entry 8) the decoder
of table words gives the operation that word decodes to, and the step from the state with that word placed is
that operation executed on the original state (log entry 1). [20_memory.md section 1, 30_encoding.md section 4] -/
def Obligations.StepRunsTheWordPlacedForIt : Prop :=
  ∀ (s : State) (nbits n : Nat), n % 2 ^ nbits < 1024 →
    ∃ i, decodeTableWord nbits n = some i ∧ i = decode (BitVec.ofNat 10 (n % 2 ^ nbits)) ∧
      step (s.withFetchWord nbits n) = exec i s

/-- When the stream is at its end, or the next presentation has IN_VALID = 0 and no reset whatever its other
lines carry, the step completes with SR, CNT, OUT and the run records unchanged and OUT_VALID = 0, and only that
presentation is gone (log entry 2). [20_memory.md section 1, 60_exceptions.md section 5] -/
def Obligations.NothingPresentedHoldsTheState : Prop :=
  ∀ (s : State), (s.input = [] ∨ ∃ p rest, s.input = p :: rest ∧ p.hwReset = false ∧ p.inValid = false) →
    ∃ t, step s = .next t ∧ t.sr = s.sr ∧ t.cnt = s.cnt ∧ t.out = s.out ∧ t.outValid = false ∧
      t.runStart = s.runStart ∧ t.runs = s.runs ∧ t.input = s.input.tail

/-- When the next presentation asserts the reset, whatever operation stands beside it, the step completes with SR
= 0, CNT = 0, OUT_VALID = 0 and OUT unchanged, and that presentation is gone (the spec's own choices D3, D9,
D11). That the operation beaten is lost is log entry 5; that the list of closed runs, a field of the model's own
(log entry 3), is unchanged, so that a run broken off is not closed, is the model's choice of log entry 7.
[60_exceptions.md section 3, 70_reset_and_hazards.md section 1, 92_eei_decisions.md D9] -/
def Obligations.HardwareResetBeatsThePresentedOperation : Prop :=
  ∀ (s : State) (p : InPort) (rest : List InPort), s.input = p :: rest → p.hwReset = true →
    ∃ t, step s = .next t ∧ t.sr = 0 ∧ t.cnt = 0 ∧ t.outValid = false ∧ t.out = s.out ∧
      t.runs = s.runs ∧ t.input = rest

/-- From every state every operation and every step gives a next state, and so does every number of steps: no
input makes the block fault, hang or stop. [R130] -/
def Obligations.NoStepFaultsOrStops : Prop :=
  (∀ (i : Instr) (s : State), ∃ t, exec i s = .next t) ∧ (∀ s : State, ∃ t, step s = .next t) ∧
  (∀ (k : Nat) (s : State), safeFor k s)

/-- After reset SR is 0x00, CNT is 0, ACC is empty and OUT_VALID is 0; the output history is empty (the last is
the model's, log entry 3). [10_state.md section 3, 70_reset_and_hazards.md section 1, 92_eei_decisions.md D9] -/
def Obligations.ResetIsTheStartState : Prop :=
  State.reset.sr = 0x00 ∧ State.reset.cnt = 0 ∧ State.reset.acc = [] ∧ State.reset.outValid = false ∧
  State.reset.out = []

/-- From every state, an unspecified power-on state included, START, END and the hardware reset all leave SR = 0
and CNT = 0 and add nothing to OUT; the hardware reset taken at power-on leaves the state after reset (the last
is the model's form, log entry 6). [10_state.md section 3, 40_stream_control.md section 1,
70_reset_and_hazards.md section 1, 92_eei_decisions.md D9, 92_eei_decisions.md D10] -/
def Obligations.StartEndAndResetLeaveTheSameRegisters : Prop :=
  (∀ s : State, ∃ t u, exec .start s = .next t ∧ exec .endInput s = .next u ∧
    t.atStart ∧ u.atStart ∧ (hardwareReset s).atStart ∧
    t.out = s.out ∧ u.out = s.out ∧ (hardwareReset s).out = s.out) ∧
  hardwareReset State.powerOn = State.reset

/-- After reset SR < 2^CNT, the port (while OUT_VALID = 1) shows the last byte of OUT and its token, and the run
begins inside OUT (the last is of the model's own field runStart, whose reset value is the model's choice of log
entry 3). [10_state.md section 1 (R13), 20_memory.md section 1] -/
def Obligations.ResetMeetsTheInvariants : Prop :=
  State.reset.Inv

/-- From every state, reachable or not, in which SR < 2^CNT, the port (while OUT_VALID = 1) shows the last byte
of OUT and its token, and the run begins inside OUT, every step gives a state in which all three hold (the third
is of the model's own field, log entry 3). [10_state.md section 1 (R13), 20_memory.md section 1] -/
def Obligations.EveryStepKeepsTheInvariants : Prop :=
  ∀ s t : State, s.Inv → step s = .next t → t.Inv

/-- In every state with SR < 2^CNT: the shifted value is exactly SR*2 + b, at most 127 while CNT is at most 6 and
at most 255 when CNT = 7. [42_pack_emit.md section 4, 10_state.md section 1 (R13)] -/
def Obligations.NoBitIsEverShiftedOut : Prop :=
  ∀ (s : State) (b : Bool), s.accumulatorOk →
    (shiftIn s.sr b).toNat = s.sr.toNat * 2 + b.toNat ∧
    (s.cnt.toNat ≤ 6 → (shiftIn s.sr b).toNat ≤ 127) ∧ (s.cnt.toNat = 7 → s.sr.toNat ≤ 127)

/-- After any number of steps, resets and restarts included, the old OUT is an initial segment of the new one,
and the old list of closed runs of the new one (the latter the model's own, log entry 3).
[70_reset_and_hazards.md section 1, 10_state.md section 1] -/
def Obligations.EmittedBytesStayEmitted : Prop :=
  ∀ (k : Nat) (s t : State), Host.Core.run Sys2Proof.core k s = .next t → s.out <+: t.out ∧ s.runs <+: t.runs

/-- From every state in the start state, eight pushes of b1 to b8 complete with exactly one byte appended to OUT,
of value b1*128 + b2*64 + b3*32 + b4*16 + b5*8 + b6*4 + b7*2 + b8, with b1 in bit 7 down to b8 in bit 0, and the
start state again. [R34] -/
def Obligations.FirstPixelOfAGroupIsTheMostSignificantBit : Prop :=
  ∀ (s : State) (b1 b2 b3 b4 b5 b6 b7 b8 : Bool), s.atStart →
    ∃ t, runOps ([b1, b2, b3, b4, b5, b6, b7, b8].map pushOf) s = .next t ∧ t.atStart ∧
      t.outValid = true ∧ t.out = s.out ++ [t.outByte] ∧
      t.outByte.toNat = b1.toNat * 128 + b2.toNat * 64 + b3.toNat * 32 + b4.toNat * 16 + b5.toNat * 8
        + b6.toNat * 4 + b7.toNat * 2 + b8.toNat * 1 ∧
      t.outByte.getLsbD 7 = b1 ∧ t.outByte.getLsbD 6 = b2 ∧ t.outByte.getLsbD 5 = b3 ∧ t.outByte.getLsbD 4 = b4 ∧
      t.outByte.getLsbD 3 = b5 ∧ t.outByte.getLsbD 2 = b6 ∧ t.outByte.getLsbD 1 = b7 ∧ t.outByte.getLsbD 0 = b8

/-- Seven black then one white emit 0x01 and the reverse emits 0x80; a palindrome emits the same both ways.
[42_pack_emit.md section 4, 20_memory.md section 2, 93_implementation_defined.md U8] -/
def Obligations.ReversingTheInputChangesTheOutput : Prop :=
  encodeBytes [0, 0, 0, 0, 0, 0, 0, 255] = [0x01] ∧ encodeBytes [0, 0, 0, 0, 0, 0, 0, 255].reverse = [0x80] ∧
  encodeBytes [255, 0, 0, 0, 0, 0, 0, 255] = [0x81] ∧ encodeBytes [255, 0, 0, 0, 0, 0, 0, 255].reverse = [0x81]

/-- From every state in the start state, after any list of pixels: CNT = Nc mod 8, exactly floor(Nc/8) bytes were
appended to OUT, they are the bytes of the whole groups, and ACC is the list of the last Nc mod 8 classified
bits. [10_state.md section 1 (R11), 42_pack_emit.md section 4] -/
def Obligations.CounterIsTheClassifiedCountModEight : Prop :=
  ∀ (s : State) (vs : List Int), s.atStart →
    ∃ t, runOps (vs.map Instr.ofIntensity) s = .next t ∧
      t.cnt.toNat = (classifiedBits vs).length % 8 ∧
      t.out.length = s.out.length + (classifiedBits vs).length / 8 ∧
      t.out = s.out ++ bytesOfBits (classifiedBits vs) ∧
      t.acc = (classifiedBits vs).drop (8 * ((classifiedBits vs).length / 8)) ∧ t.accumulatorOk

/-- From every state in the start state with the presentations of n pixels and END before it, whatever follows:
after exactly n + 1 steps the block is in the start state, those presentations are consumed, and OUT has grown by
the bytes of consecutive groups of eight classified bits, no more and no less; if the run began at the end of
OUT, that list is recorded as a closed run (the record is the model's own, log entry 3). [40_stream_control.md
section 3, 70_reset_and_hazards.md section 4, 20_memory.md section 3] -/
def Obligations.RunThroughThePortsIsTheClosedForm : Prop :=
  ∀ (s : State) (vs : List Byte) (rest : List InPort), s.atStart →
    s.input = presentations (vs.map Instr.ofPix ++ [.endInput]) ++ rest →
    ∃ t, Host.Core.run Sys2Proof.core (vs.length + 1) s = .next t ∧ t.atStart ∧ t.input = rest ∧
      t.out = s.out ++ bytesOfBits (classifiedBits (vs.map fun v => (v.toNat : Int))) ∧
      (s.runStart = s.out.length →
        t.runs = s.runs ++ [bytesOfBits (classifiedBits (vs.map fun v => (v.toNat : Int)))])

/-- For every input list: the number of tokens is floor(Nc/8), and for every k below it the k-th token (from 0)
is the hex token of the byte made of classified bits 8k to 8k+7 in scan order, the first most significant, black
as 0 and white as 1. [R75] -/
def Obligations.EncodeMeetsTheResultGuarantee : Prop :=
  ∀ vs : List Int,
    (encodeTokens vs).length = (classifiedBits vs).length / 8 ∧
    ∀ k < (classifiedBits vs).length / 8,
      (encodeTokens vs)[k]? =
        some (hexToken (BitVec.ofNat 8 (bitsValue 0 (((classifiedBits vs).drop (8 * k)).take 8))))

/-- For input of length divisible by 8 holding only 0 and 255 the output length is the input length / 8; for any
input it is floor(Nc/8), which is at most floor(length/8); with fewer than 8 classified pixels the output is
empty. [R76] -/
def Obligations.OutputLengthLaws : Prop :=
  (∀ vs : List Int, (∀ v ∈ vs, v = 0 ∨ v = 255) → 8 ∣ vs.length → (encodeTokens vs).length = vs.length / 8) ∧
  (∀ vs : List Int, (encodeTokens vs).length = (classifiedBits vs).length / 8 ∧
    (classifiedBits vs).length / 8 ≤ vs.length / 8) ∧
  (∀ vs : List Int, (classifiedBits vs).length < 8 → encodeTokens vs = [])

/-- encode of the empty list is empty; an input none of whose values is 0 or 255 yields nothing, and after each
of its pixels, from the start state, the block is still in the start state. [40_stream_control.md section 3,
41_binarizer.md section 2] -/
def Obligations.EmptyAndAllSkippedInputsEmitNothing : Prop :=
  encodeTokens [] = [] ∧
  ∀ vs : List Int, (∀ v ∈ vs, v ≠ 0 ∧ v ≠ 255) → encodeTokens vs = [] ∧
    ∀ (s : State) (n : Nat), s.atStart →
      ∃ t, runOps ((vs.take n).map Instr.ofIntensity) s = .next t ∧ t.atStart ∧ t.out = s.out

/-- If the number of classified values of xs is a multiple of 8 then encode(xs ++ ys) = encode(xs) ++ encode(ys);
for some xs and ys without that condition it is not; deleting the unclassified values of an input, all or some,
never changes the output. [40_stream_control.md section 3] -/
def Obligations.EncodeOfAConcatenation : Prop :=
  (∀ xs ys : List Int, 8 ∣ (classifiedBits xs).length →
    encodeTokens (xs ++ ys) = encodeTokens xs ++ encodeTokens ys) ∧
  (∃ xs ys : List Int, encodeTokens (xs ++ ys) ≠ encodeTokens xs ++ encodeTokens ys) ∧
  (∀ (xs ys : List Int) (v : Int), v ≠ 0 → v ≠ 255 → encodeTokens (xs ++ v :: ys) = encodeTokens (xs ++ ys))

/-- Every step that emits appends exactly one token, the one on the port, to the token stream, and every other
step appends none; the tokens of a run are those of its bytes in order, floor(Nc/8) of them. [R114] -/
def Obligations.OneTokenPerByteInOrder : Prop :=
  (∀ s t : State, step s = .next t →
    (t.outValid = true → t.tokens = s.tokens ++ [t.outTok] ∧ t.outTok = hexToken t.outByte) ∧
    (t.outValid = false → t.tokens = s.tokens)) ∧
  (∀ vs : List Int, encodeTokens vs = (encodeBytes vs).map hexToken ∧
    (encodeTokens vs).length = (classifiedBits vs).length / 8)

/-- Whenever an operation increments CNT it is PUSH0 or PUSH1; the number of classified pixels of an input is the
number of PUSH0 and PUSH1 operations it becomes; the output length is in that number. [R86] -/
def Obligations.OnlyPushesCount : Prop :=
  (∀ (i : Instr) (s t : State), exec i s = .next t → t.cnt.toNat = s.cnt.toNat + 1 → i = .push0 ∨ i = .push1) ∧
  (∀ s : State, s.cnt.toNat < 7 → ∀ b : Bool, ∃ t, exec (pushOf b) s = .next t ∧ t.cnt.toNat = s.cnt.toNat + 1) ∧
  (∀ vs : List Int,
    (classifiedBits vs).length = (vs.map Instr.ofIntensity).countP (fun i => i == .push0 || i == .push1) ∧
    (encodeTokens vs).length = (vs.map Instr.ofIntensity).countP (fun i => i == .push0 || i == .push1) / 8)

/-- From every state in the start state, after any pixels vs, the step of one more pixel v emits a byte exactly
when v is classified and makes the classified count a multiple of 8; and the bytes after vs are an initial
segment of the bytes after vs ++ ws. [20_memory.md section 5, 70_reset_and_hazards.md section 4] -/
def Obligations.BytesAppearExactlyAtEveryEighthClassifiedPixel : Prop :=
  ∀ (s : State) (vs : List Int), s.atStart → ∃ t, runOps (vs.map Instr.ofIntensity) s = .next t ∧
    (∀ v : Int, ∃ u, exec (Instr.ofIntensity v) t = .next u ∧
      (u.outValid = true ↔ (v = 0 ∨ v = 255) ∧ 8 ∣ (classifiedBits (vs ++ [v])).length)) ∧
    (∀ ws : List Int, ∃ u, runOps ((vs ++ ws).map Instr.ofIntensity) s = .next u ∧ t.out <+: u.out)

/-- For every state and every stream of presentations, resets included: running the stream to its end, and
running the stream with all idle presentations and all SKIP words removed, end with the same SR, CNT and OUT, and
the same list of closed runs (the last a field of the model's own, log entry 3). [20_memory.md section 4,
40_stream_control.md section 3, 60_exceptions.md section 5] -/
def Obligations.SkipsAndIdlingNeverMatter : Prop :=
  ∀ (s : State), ∃ t u,
    Host.Core.run Sys2Proof.core s.input.length s = .next t ∧
    Host.Core.run Sys2Proof.core (s.input.filter InPort.matters).length
      { s with input := s.input.filter InPort.matters } = .next u ∧
    t.sr = u.sr ∧ t.cnt = u.cnt ∧ t.out = u.out ∧ t.runs = u.runs ∧ t.input = [] ∧ u.input = []

/-- For any two states, unspecified or unfinished ones included, with the same stream whose first presentation is
START, END or the hardware reset: after any number of steps at least one, both have emitted the same bytes since,
hold the same SR and CNT, and show the same OUT_VALID, and the same byte and token while it is 1. [10_state.md
section 2, 10_state.md section 3, 40_stream_control.md section 3, 70_reset_and_hazards.md section 1] -/
def Obligations.NoStateCrossesADelimiter : Prop :=
  ∀ (s1 s2 : State) (p : InPort) (rest : List InPort), s1.input = p :: rest → s2.input = p :: rest →
    p.delimits = true → ∀ k : Nat, ∃ t1 t2,
      Host.Core.run Sys2Proof.core (k + 1) s1 = .next t1 ∧ Host.Core.run Sys2Proof.core (k + 1) s2 = .next t2 ∧
      emittedBetween s1 t1 = emittedBetween s2 t2 ∧ t1.sr = t2.sr ∧ t1.cnt = t2.cnt ∧ t1.input = t2.input ∧
      t1.outValid = t2.outValid ∧
      (t1.outValid = true → t1.outByte = t2.outByte ∧ t1.outTok = t2.outTok)

/-- In every state with SR < 2^CNT, SR is the base-2 number of ACC and CNT its length; every operation completes,
and what it does is what the source's algorithm on the list of bits does to ACC, with the same byte emitted or
none. [10_state.md section 1 (R12), 30_encoding.md section 4, 42_pack_emit.md section 1] -/
def Obligations.RegistersRefineTheListOfBits : Prop :=
  ∀ (i : Instr) (s : State), s.accumulatorOk →
    s.sr.toNat = bitsValue 0 s.acc ∧ s.cnt.toNat = s.acc.length ∧
    ∃ t, exec i s = .next t ∧ listStep i s.acc = (t.acc, t.emission)

/-- From every state in the start state, for every list of operations, the machine completes and has emitted
exactly the bytes of the design that lets the counter reach 8 and emits in a second, internal step.
[42_pack_emit.md section 2 (R102), 92_eei_decisions.md D7] -/
def Obligations.TwoStepDesignEmitsTheSameBytes : Prop :=
  ∀ (is : List Instr) (s : State), s.atStart →
    ∃ t, runOps is s = .next t ∧ emittedBetween s t = designEmits twoPhaseStep is ⟨0, 0⟩

/-- From every state in the start state, for every list of operations, the machine completes and has emitted
exactly the bytes of the left-aligned design. [42_pack_emit.md section 4 (R108), 92_eei_decisions.md D8] -/
def Obligations.LeftAlignedDesignEmitsTheSameBytes : Prop :=
  ∀ (is : List Instr) (s : State), s.atStart →
    ∃ t, runOps is s = .next t ∧ emittedBetween s t = designEmits leftStep is ⟨0, 0⟩

/-- For every byte: below 16 the token is the three codes of 0, x and the low digit; otherwise the four codes of
0, x, the high digit and the low digit; the code of a digit d is 0x30 + d up to 9 and 0x57 + d from 10 (the
unpadded form for 2 to 15 and the character codes are the spec's choice D13, log entry 9). [43_hex_token.md
section 1, 30_encoding.md section 3, 92_eei_decisions.md D13] -/
def Obligations.HexTokenHasNoLeadingZero : Prop :=
  (∀ d : BitVec 4, (charCode (digit d)).toNat = if d.toNat ≤ 9 then 0x30 + d.toNat else 0x57 + d.toNat) ∧
  (∀ b : Byte, hexToken b =
    if b.toNat < 16 then [0x30, 0x78, charCode (digit (BitVec.ofNat 4 b.toNat))]
    else [0x30, 0x78, charCode (digit (BitVec.ofNat 4 (b.toNat / 16))), charCode (digit (BitVec.ofNat 4 (b.toNat % 16)))]) ∧
  (∀ b : Byte, (hexToken b).length = if b.toNat < 16 then 3 else 4)

/-- For every byte the characters after 0x, read in base 16, give its value; different bytes give different
tokens; no token holds a space, a comma or a newline (digit alphabet and codes: log entry 9). [43_hex_token.md
section 1] -/
def Obligations.TokenReadsBackToItsByte : Prop :=
  (∀ b : Byte, tokenValue (hexToken b) = some b.toNat) ∧
  (∀ a b : Byte, hexToken a = hexToken b → a = b) ∧
  (∀ b : Byte, 0x20 ∉ hexToken b ∧ 0x2C ∉ hexToken b ∧ 0x0A ∉ hexToken b)

/-- Rendering nothing gives nothing; rendering one token gives it and the separator; rendering a concatenation is
the concatenation of the renderings, so the last token too is followed by the separator (outside the block, D14;
the codes, log entry 9). [43_hex_token.md section 2, 92_eei_decisions.md D14] -/
def Obligations.SinkTextFollowsEveryTokenWithASeparator : Prop :=
  render [] = [] ∧ (∀ t : List Byte, render [t] = t ++ [0x2C, 0x20]) ∧
  (∀ xs ys : List (List Byte), render (xs ++ ys) = render xs ++ render ys) ∧
  (∀ ts : List (List Byte), (render ts).length = (ts.map List.length).sum + 2 * ts.length)

/-- If OUT is some base followed by the bytes of the whole groups of a list of bits, ACC is the rest of that
list, CNT its length mod 8 and SR < 2^CNT, then whatever is presented every step gives a state of which the same
holds, with the list and base moved on: a presented pixel adds its classified bit to the list, or none; START,
END and the hardware reset make OUT the base and empty the list; with nothing presented neither moves (what is
found at the end of the modelled stream, log entry 2). [40_stream_control.md section 3, 42_pack_emit.md section
4, 10_state.md section 1 (R11, R12, R13)] -/
def Obligations.EveryStepKeepsTheGroupingOfTheBitsSoFar : Prop :=
  ∀ (s t : State) (base : List Byte) (bits : List Bool), s.holdsBits base bits → step s = .next t →
    t.holdsBits (baseAfter (takeInput s).1 base bits) (bitsAfter (takeInput s).1 bits)

/-- Whatever else two states hold, histories, port and free values included: if they agree on SR, CNT and what
will be presented, a step of each gives states that agree on them again and on what was emitted, byte and token
or none. [10_state.md section 2 (R19), 40_stream_control.md section 3 (R78)] -/
def Obligations.AgreeingStatesStepToAgreeingStates : Prop :=
  ∀ s1 s2 : State, s1.sr = s2.sr → s1.cnt = s2.cnt → s1.input = s2.input →
    ∃ t1 t2, step s1 = .next t1 ∧ step s2 = .next t2 ∧
      t1.sr = t2.sr ∧ t1.cnt = t2.cnt ∧ t1.input = t2.input ∧ t1.emission = t2.emission ∧
      (t1.emission ≠ none → t1.outTok = t2.outTok) ∧ emittedBetween s1 t1 = emittedBetween s2 t2

/-- If the two-step design's registers are SR and CNT widened to 4 bits, then for every operation that gives the
machine a next state the design's registers after both its phases are again SR and CNT widened, and both emit the
same byte or none. [42_pack_emit.md section 2 (R102), 92_eei_decisions.md D7] -/
def Obligations.TwoStepDesignKeepsItsRegistersEqual : Prop :=
  ∀ (i : Instr) (s t : State) (r : TwoPhaseRegs), r.tracks s → exec i s = .next t →
    (twoPhaseStep i r).1.tracks t ∧ (twoPhaseStep i r).2 = t.emission

/-- If SR < 2^CNT, the left-aligned design's counter is CNT and its byte SR shifted left by 8 - CNT, then for
every operation that gives a next state the three hold again after it, and both emit the same byte or none.
[42_pack_emit.md section 4 (R108), 92_eei_decisions.md D8] -/
def Obligations.LeftAlignedDesignKeepsItsRegisterAligned : Prop :=
  ∀ (i : Instr) (s t : State) (r : LeftRegs), s.accumulatorOk → r.tracks s → exec i s = .next t →
    t.accumulatorOk ∧ (leftStep i r).1.tracks t ∧ (leftStep i r).2 = t.emission
end

