-- ==== Sys2Proof/Laws/State.lean ====
section
/-! SUPPORT. One lemma per field per update of the shared operations, so that no later proof unfolds a record update. -/

namespace Sys2Proof.Machine

@[simp] theorem clearAcc_sr (s : State) : (clearAcc s).sr = 0 := rfl
@[simp] theorem clearAcc_cnt (s : State) : (clearAcc s).cnt = 0 := rfl
@[simp] theorem clearAcc_outValid (s : State) : (clearAcc s).outValid = s.outValid := rfl
@[simp] theorem clearAcc_outByte (s : State) : (clearAcc s).outByte = s.outByte := rfl
@[simp] theorem clearAcc_outTok (s : State) : (clearAcc s).outTok = s.outTok := rfl
@[simp] theorem clearAcc_input (s : State) : (clearAcc s).input = s.input := rfl
@[simp] theorem clearAcc_out (s : State) : (clearAcc s).out = s.out := rfl
@[simp] theorem clearAcc_runStart (s : State) : (clearAcc s).runStart = s.runStart := rfl
@[simp] theorem clearAcc_runs (s : State) : (clearAcc s).runs = s.runs := rfl
@[simp] theorem clearAcc_freeCount (s : State) : (clearAcc s).freeCount = s.freeCount := rfl

@[simp] theorem outEmit_sr (b : Byte) (s : State) : (outEmit b s).sr = s.sr := rfl
@[simp] theorem outEmit_cnt (b : Byte) (s : State) : (outEmit b s).cnt = s.cnt := rfl
@[simp] theorem outEmit_outValid (b : Byte) (s : State) : (outEmit b s).outValid = true := rfl
@[simp] theorem outEmit_outByte (b : Byte) (s : State) : (outEmit b s).outByte = b := rfl
@[simp] theorem outEmit_outTok (b : Byte) (s : State) : (outEmit b s).outTok = hexToken b := rfl
@[simp] theorem outEmit_input (b : Byte) (s : State) : (outEmit b s).input = s.input := rfl
@[simp] theorem outEmit_out (b : Byte) (s : State) : (outEmit b s).out = s.out ++ [b] := rfl
@[simp] theorem outEmit_runStart (b : Byte) (s : State) : (outEmit b s).runStart = s.runStart := rfl
@[simp] theorem outEmit_runs (b : Byte) (s : State) : (outEmit b s).runs = s.runs := rfl
@[simp] theorem outEmit_freeCount (b : Byte) (s : State) : (outEmit b s).freeCount = s.freeCount := rfl

@[simp] theorem outNone_sr (s : State) : (outNone s).sr = s.sr := rfl
@[simp] theorem outNone_cnt (s : State) : (outNone s).cnt = s.cnt := rfl
@[simp] theorem outNone_outValid (s : State) : (outNone s).outValid = false := rfl
@[simp] theorem outNone_outByte (s : State) : (outNone s).outByte = Config.freeOutByte s.freeCount := rfl
@[simp] theorem outNone_outTok (s : State) : (outNone s).outTok = Config.freeOutTok s.freeCount := rfl
@[simp] theorem outNone_input (s : State) : (outNone s).input = s.input := rfl
@[simp] theorem outNone_out (s : State) : (outNone s).out = s.out := rfl
@[simp] theorem outNone_runStart (s : State) : (outNone s).runStart = s.runStart := rfl
@[simp] theorem outNone_runs (s : State) : (outNone s).runs = s.runs := rfl
@[simp] theorem outNone_freeCount (s : State) : (outNone s).freeCount = s.freeCount + 1 := rfl

@[simp] theorem beginRun_sr (s : State) : (beginRun s).sr = 0 := rfl
@[simp] theorem beginRun_cnt (s : State) : (beginRun s).cnt = 0 := rfl
@[simp] theorem beginRun_outValid (s : State) : (beginRun s).outValid = s.outValid := rfl
@[simp] theorem beginRun_outByte (s : State) : (beginRun s).outByte = s.outByte := rfl
@[simp] theorem beginRun_outTok (s : State) : (beginRun s).outTok = s.outTok := rfl
@[simp] theorem beginRun_input (s : State) : (beginRun s).input = s.input := rfl
@[simp] theorem beginRun_out (s : State) : (beginRun s).out = s.out := rfl
@[simp] theorem beginRun_runStart (s : State) : (beginRun s).runStart = s.out.length := rfl
@[simp] theorem beginRun_runs (s : State) : (beginRun s).runs = s.runs := rfl
@[simp] theorem beginRun_freeCount (s : State) : (beginRun s).freeCount = s.freeCount := rfl

@[simp] theorem closeRun_sr (s : State) : (closeRun s).sr = s.sr := rfl
@[simp] theorem closeRun_cnt (s : State) : (closeRun s).cnt = s.cnt := rfl
@[simp] theorem closeRun_outValid (s : State) : (closeRun s).outValid = s.outValid := rfl
@[simp] theorem closeRun_outByte (s : State) : (closeRun s).outByte = s.outByte := rfl
@[simp] theorem closeRun_outTok (s : State) : (closeRun s).outTok = s.outTok := rfl
@[simp] theorem closeRun_input (s : State) : (closeRun s).input = s.input := rfl
@[simp] theorem closeRun_out (s : State) : (closeRun s).out = s.out := rfl
@[simp] theorem closeRun_runStart (s : State) : (closeRun s).runStart = s.runStart := rfl
@[simp] theorem closeRun_runs (s : State) : (closeRun s).runs = s.runs ++ [s.runOut] := rfl
@[simp] theorem closeRun_freeCount (s : State) : (closeRun s).freeCount = s.freeCount := rfl

@[simp] theorem presentWord_sr (w : OpWord) (s : State) : (presentWord w s).sr = s.sr := rfl
@[simp] theorem presentWord_cnt (w : OpWord) (s : State) : (presentWord w s).cnt = s.cnt := rfl
@[simp] theorem presentWord_outValid (w : OpWord) (s : State) : (presentWord w s).outValid = s.outValid := rfl
@[simp] theorem presentWord_outByte (w : OpWord) (s : State) : (presentWord w s).outByte = s.outByte := rfl
@[simp] theorem presentWord_outTok (w : OpWord) (s : State) : (presentWord w s).outTok = s.outTok := rfl
@[simp] theorem presentWord_input (w : OpWord) (s : State) : (presentWord w s).input = InPort.ofWord w :: s.input := rfl
@[simp] theorem presentWord_out (w : OpWord) (s : State) : (presentWord w s).out = s.out := rfl
@[simp] theorem presentWord_runStart (w : OpWord) (s : State) : (presentWord w s).runStart = s.runStart := rfl
@[simp] theorem presentWord_runs (w : OpWord) (s : State) : (presentWord w s).runs = s.runs := rfl
@[simp] theorem presentWord_freeCount (w : OpWord) (s : State) : (presentWord w s).freeCount = s.freeCount := rfl

@[simp] theorem hardwareReset_sr (s : State) : (hardwareReset s).sr = 0 := rfl
@[simp] theorem hardwareReset_cnt (s : State) : (hardwareReset s).cnt = 0 := rfl
@[simp] theorem hardwareReset_outValid (s : State) : (hardwareReset s).outValid = false := rfl
@[simp] theorem hardwareReset_outByte (s : State) : (hardwareReset s).outByte = Config.freeOutByte s.freeCount := rfl
@[simp] theorem hardwareReset_outTok (s : State) : (hardwareReset s).outTok = Config.freeOutTok s.freeCount := rfl
@[simp] theorem hardwareReset_input (s : State) : (hardwareReset s).input = s.input := rfl
@[simp] theorem hardwareReset_out (s : State) : (hardwareReset s).out = s.out := rfl
@[simp] theorem hardwareReset_runStart (s : State) : (hardwareReset s).runStart = s.out.length := rfl
@[simp] theorem hardwareReset_runs (s : State) : (hardwareReset s).runs = s.runs := rfl
@[simp] theorem hardwareReset_freeCount (s : State) : (hardwareReset s).freeCount = s.freeCount + 1 := rfl

@[simp] theorem idle_sr (s : State) : (idle s).sr = s.sr := rfl
@[simp] theorem idle_cnt (s : State) : (idle s).cnt = s.cnt := rfl
@[simp] theorem idle_outValid (s : State) : (idle s).outValid = false := rfl
@[simp] theorem idle_outByte (s : State) : (idle s).outByte = Config.freeOutByte s.freeCount := rfl
@[simp] theorem idle_outTok (s : State) : (idle s).outTok = Config.freeOutTok s.freeCount := rfl
@[simp] theorem idle_input (s : State) : (idle s).input = s.input := rfl
@[simp] theorem idle_out (s : State) : (idle s).out = s.out := rfl
@[simp] theorem idle_runStart (s : State) : (idle s).runStart = s.runStart := rfl
@[simp] theorem idle_runs (s : State) : (idle s).runs = s.runs := rfl
@[simp] theorem idle_freeCount (s : State) : (idle s).freeCount = s.freeCount + 1 := rfl

end Sys2Proof.Machine
end

