-- ==== Sys2Proof/Laws/Ops.lean ====
section
/-! SUPPORT. What each shared operation can do, said once; the provers cite these instead of unfolding. -/

namespace Sys2Proof.Machine

theorem completesGroup_iff (cnt : Count) : completesGroup cnt = true ↔ cnt = 7 := by
  simp [completesGroup]

theorem completesGroup_eq_countCarry (cnt : Count) : completesGroup cnt = countCarry cnt := by
  revert cnt; decide

/-- `push` below seven held bits (R100). -/
theorem push_of_ne (b : Bool) (s : State) (h : s.cnt ≠ 7) :
    push b s = outNone { s with sr := shiftIn s.sr b, cnt := s.cnt + 1 } := by
  have hc : ¬completesGroup s.cnt = true := fun e => h ((completesGroup_iff _).1 e)
  rw [push, if_neg hc]

/-- `push` of the eighth bit (R101). -/
theorem push_of_eq (b : Bool) (s : State) (h : s.cnt = 7) :
    push b s = clearAcc (outEmit (shiftIn s.sr b) s) := by
  rw [push, if_pos ((completesGroup_iff _).2 h)]

/-- Everything `push` can do. -/
theorem push_cases (b : Bool) (s : State) :
    (s.cnt ≠ 7 ∧ push b s = outNone { s with sr := shiftIn s.sr b, cnt := s.cnt + 1 }) ∨
    (s.cnt = 7 ∧ push b s = clearAcc (outEmit (shiftIn s.sr b) s)) := by
  by_cases h : s.cnt = 7
  · exact .inr ⟨h, push_of_eq b s h⟩
  · exact .inl ⟨h, push_of_ne b s h⟩

@[simp] theorem push_input (b : Bool) (s : State) : (push b s).input = s.input := by
  obtain ⟨_, e⟩ | ⟨_, e⟩ := push_cases b s <;> simp [e]

@[simp] theorem push_runs (b : Bool) (s : State) : (push b s).runs = s.runs := by
  obtain ⟨_, e⟩ | ⟨_, e⟩ := push_cases b s <;> simp [e]

@[simp] theorem push_runStart (b : Bool) (s : State) : (push b s).runStart = s.runStart := by
  obtain ⟨_, e⟩ | ⟨_, e⟩ := push_cases b s <;> simp [e]

/-- A shift-in is `SR*2 + b`, modulo 256 (R100). -/
theorem shiftIn_toNat (sr : Byte) (b : Bool) : (shiftIn sr b).toNat = (sr.toNat * 2 + b.toNat) % 256 := by
  revert sr b; decide

/-- Everything `exec` can do: one next state per operation. -/
theorem exec_start (s : State) : exec .start s = .next (outNone (beginRun s)) := rfl

theorem exec_endInput (s : State) : exec .endInput s = .next (outNone (beginRun (closeRun s))) := rfl

theorem exec_push0 (s : State) : exec .push0 s = .next (push false s) := rfl

theorem exec_push1 (s : State) : exec .push1 s = .next (push true s) := rfl

theorem exec_skip (v : Byte) (s : State) : exec (.skip v) s = .next (outNone s) := rfl

/-- The ten lines of the port, put together again, are the word that was put on them. -/
@[simp] theorem word_ofWord (w : OpWord) : (InPort.ofWord w).word = w := by
  revert w; decide +kernel

@[simp] theorem presented_ofWord (w : OpWord) : (InPort.ofWord w).presented = .operation w := by
  simp only [InPort.presented, word_ofWord]; rfl

/-- Everything `step` can do: nothing presented, a reset, or an operation. -/
theorem step_nil (s : State) (h : s.input = []) : step s = .next (idle s) := by
  simp [step, takeInput, h]

theorem step_nothing (s : State) (p : InPort) (rest : List InPort) (h : s.input = p :: rest)
    (hp : p.presented = .nothing) : step s = .next (idle { s with input := rest }) := by
  simp [step, takeInput, h, hp]

theorem step_hardwareReset (s : State) (p : InPort) (rest : List InPort) (h : s.input = p :: rest)
    (hp : p.presented = .hardwareReset) : step s = .next (hardwareReset { s with input := rest }) := by
  simp [step, takeInput, h, hp]

theorem step_operation (s : State) (p : InPort) (rest : List InPort) (w : OpWord) (h : s.input = p :: rest)
    (hp : p.presented = .operation w) : step s = exec (decode w) { s with input := rest } := by
  simp [step, takeInput, h, hp]

/-- Everything `step` can do, in one: the presentation is gone, and the block idles, is reset or executes. -/
theorem step_inversion (s : State) :
    ((takeInput s).1 = .nothing ∧ step s = .next (idle { s with input := s.input.tail })) ∨
    ((takeInput s).1 = .hardwareReset ∧ step s = .next (hardwareReset { s with input := s.input.tail })) ∨
    ∃ w, (takeInput s).1 = .operation w ∧ step s = exec (decode w) { s with input := s.input.tail } := by
  rcases h : s.input with _ | ⟨p, rest⟩
  · have e : { s with input := [] } = s := by rw [← h]
    exact .inl ⟨by simp [takeInput, h], by rw [step_nil s h, List.tail_nil, e]⟩
  · have ht : (takeInput s).1 = p.presented := by simp [takeInput, h]
    rw [ht, List.tail_cons]
    cases hp : p.presented with
    | nothing => exact .inl ⟨rfl, step_nothing s p rest h hp⟩
    | hardwareReset => exact .inr (.inl ⟨rfl, step_hardwareReset s p rest h hp⟩)
    | operation w => exact .inr (.inr ⟨w, rfl, step_operation s p rest w h hp⟩)

/-- The hardware reset, taken at power-on, leaves the state after reset (R20, R24). -/
theorem hardwareReset_powerOn : hardwareReset State.powerOn = State.reset := rfl

theorem length_accBits (sr : Byte) (n : Nat) : (accBits sr n).length = n := by
  induction n with
  | zero => rfl
  | succ n ih => simp [accBits, ih]

end Sys2Proof.Machine
end

