-- ==== Sys2Proof/Laws/Bits.lean ====
section
/-! SUPPORT. The functions on lists of bits: what grouping by eight does, and what a shift-in does to `ACC`. -/

namespace Sys2Proof.Machine

theorem accBits_shiftIn (sr : Byte) (n : Nat) (b : Bool) (hn : n < 8) :
    accBits (shiftIn sr b) (n + 1) = accBits sr n ++ [b] := by
  have h : ∀ n < 8, ∀ (sr : Byte) (b : Bool), accBits (shiftIn sr b) (n + 1) = accBits sr n ++ [b] := by
    decide +kernel
  exact h n hn sr b

/-- A list that is not eight bits and a rest is shorter than eight. -/
theorem length_lt_of_no_group (bs : List Bool)
    (h : ∀ b1 b2 b3 b4 b5 b6 b7 b8 rest, bs = b1 :: b2 :: b3 :: b4 :: b5 :: b6 :: b7 :: b8 :: rest → False) :
    bs.length < 8 := by
  by_contra hc
  rcases bs with _ | ⟨b1, _ | ⟨b2, _ | ⟨b3, _ | ⟨b4, _ | ⟨b5, _ | ⟨b6, _ | ⟨b7, _ | ⟨b8, r⟩⟩⟩⟩⟩⟩⟩⟩
  all_goals first | exact h _ _ _ _ _ _ _ _ _ rfl | simp at hc

/-- Fewer than eight bits make no byte (R38). -/
theorem bytesOfBits_of_short (bs : List Bool) (h : bs.length < 8) : bytesOfBits bs = [] := by
  unfold bytesOfBits
  split
  · simp only [List.length_cons] at h; omega
  · rfl

/-- Whole groups are grouped apart from what follows them. -/
theorem bytesOfBits_append (g rest : List Bool) (hd : 8 ∣ g.length) :
    bytesOfBits (g ++ rest) = bytesOfBits g ++ bytesOfBits rest := by
  induction g using bytesOfBits.induct with
  | case1 b1 b2 b3 b4 b5 b6 b7 b8 g ih =>
    simp only [List.cons_append, bytesOfBits, List.cons.injEq, true_and]
    exact ih (by simp only [List.length_cons] at hd; omega)
  | case2 g h =>
    have hl := length_lt_of_no_group g h
    have hg : g = [] := List.length_eq_zero_iff.1 (by omega)
    subst hg; rfl

end Sys2Proof.Machine
end

