-- ==== Sys2Proof/Laws/PerInstr.lean ====
section
/-! SUPPORT. The family of per-instruction lemmas: the canonical word of an operation is a word of its own row of
spec/opcode_table.json, by that row's mask, match and exclusion (R59). -/

namespace Sys2Proof.Laws.CanonicalWordSelectsItsRow

/-- Some row of the table carries the operation's mnemonic and selects its canonical word. -/
def Statement (i : Instr) : Prop :=
  i.wf = true → ∃ r ∈ opRows, r.mnemonic = i.mnemonic ∧ r.selects (encode i) = true

theorem start : Statement .start := fun _ => ⟨opRows[0], by decide, rfl, by decide⟩

theorem endInput : Statement .endInput := fun _ => ⟨opRows[1], by decide, rfl, by decide⟩

theorem push0 : Statement .push0 := fun _ => ⟨opRows[2], by decide, rfl, by decide⟩

theorem push1 : Statement .push1 := fun _ => ⟨opRows[3], by decide, rfl, by decide⟩

theorem skip_selected : ∀ v : Byte, (Instr.skip v).wf = true → opRows[4].selects (encode (.skip v)) = true := by
  decide +kernel

theorem skip (v : Byte) : Statement (.skip v) :=
  fun h => ⟨opRows[4], by decide, rfl, skip_selected v h⟩

end Sys2Proof.Laws.CanonicalWordSelectsItsRow
end

