-- ==== Sys2Proof/Tests/Slice0.lean ====
section
/-! SUPPORT. The model's own tests. Expected values are those of spec/95_test_vectors.md (named in each comment) or are
worked by hand from the rule cited. The last section shows, for each statement with hypotheses, that they can be met. -/

namespace Sys2Proof.Tests

open Sys2Proof Sys2Proof.Machine

/-! Well-formedness (R59, R89): the check refuses each ill-formed operand. -/

theorem test_wf_refuses_skip_black : (Instr.skip 0).wf = false := by decide

theorem test_wf_refuses_skip_white : (Instr.skip 255).wf = false := by decide

theorem test_wf_accepts_skip_neighbours : (Instr.skip 1).wf = true ∧ (Instr.skip 254).wf = true := by decide

/-! Decoding of words written out bit by bit (section 2.1, V-DEC-1 to V-DEC-13). -/

theorem test_decode_start : decode 0b1000000000 = .start ∧ decode 0b1011111111 = .start ∧
    decode 0b1100000000 = .start ∧ decode 0b1111111111 = .start := by decide

theorem test_decode_end : decode 0b0100000000 = .endInput ∧ decode 0b0111111111 = .endInput ∧
    decode 0b0110101011 = .endInput := by decide

theorem test_decode_push0 : decode 0b0000000000 = .push0 := by decide

theorem test_decode_push1 : decode 0b0011111111 = .push1 := by decide

theorem test_decode_skip : decode 0b0000000001 = .skip 1 ∧ decode 0b0001111111 = .skip 127 ∧
    decode 0b0010000000 = .skip 128 ∧ decode 0b0011111110 = .skip 254 := by decide

/-- A number that does not fit the ten lines is rejected by name (log entry 8). -/
theorem test_decode_rejects_wide : decodeNat 16 0x400 = .error .widerThanPort ∧ decodeTableWord 16 0x400 = none ∧
    decodeTableWord 16 0x3FF = some .start := by decide

/-- Mnemonics and program text (R63, R64). -/
theorem test_text : Instr.mnemonic (.skip 128) = "SKIP" ∧ programText [.push0, .skip 128] = "PUSH0; SKIP 128" := by
  decide +kernel

/-! One step of each operation. -/

/-- A small state: the state after reset but for the two registers. -/
def at_ (sr : Byte) (cnt : Count) : State := { State.reset with sr := sr, cnt := cnt }

/-- The registers, the strobe and the history after an outcome. -/
def seen : Host.Outcome State Fault Refusal → Option (Byte × Count × Bool × List Byte)
  | .next t => some (t.sr, t.cnt, t.outValid, t.out)
  | .fault _ => none
  | .refused _ => none

/-- V-CTL-2. -/
theorem test_start_discards_pending : seen (exec .start (at_ 0x05 3)) = some (0x00, 0, false, []) := by decide

/-- V-CTL-7: not emitted as 0x1F, not padded to 0xF8. -/
theorem test_end_discards_tail : seen (exec .endInput (at_ 0x1F 5)) = some (0x00, 0, false, []) := by decide

/-- V-PIX-13. -/
theorem test_push0_shifts : seen (exec .push0 (at_ 0x05 3)) = some (0x0A, 4, false, []) := by decide

/-- V-PIX-40. -/
theorem test_push0_completes : seen (exec .push0 (at_ 0x55 7)) = some (0x00, 0, true, [0xAA]) := by decide

/-- V-PIX-35. -/
theorem test_push1_shifts : seen (exec .push1 (at_ 0x3F 6)) = some (0x7F, 7, false, []) := by decide

/-- V-PIX-38: seven black, one white (source example E3). -/
theorem test_push1_completes : seen (exec .push1 (at_ 0x00 7)) = some (0x00, 0, true, [0x01]) := by decide

/-- V-PIX-45: a skip does not complete the group. -/
theorem test_skip_holds : seen (exec (.skip 128) (at_ 0x7F 7)) = some (0x7F, 7, false, []) := by decide

/-- R136, R151: the reset beats the white pixel presented with it. -/
theorem test_step_reset_beats : seen (step { at_ 0x7F 7 with
    input := [{ InPort.ofWord 0x0FF with hwReset := true }] }) = some (0x00, 0, false, []) := by decide

/-- R31: without `IN_VALID` the lines are ignored. -/
theorem test_step_idle : seen (step { at_ 0x7F 7 with
    input := [{ InPort.ofWord 0x0FF with inValid := false }] }) = some (0x7F, 7, false, []) := by decide

/-- The word placed for the next step is the one that runs. -/
theorem test_step_runs_placed_word : seen (step ((at_ 0x7F 7).withFetchWord 16 0x0FF)) =
    some (0x00, 0, true, [0xFF]) := by decide

/-! Pure functions. -/

/-- The rows of section 2.5 (R110, R112): no leading zero, a zero low digit kept. -/
theorem test_hexToken : hexToken 0x00 = [0x30, 0x78, 0x30] ∧ hexToken 0x0A = [0x30, 0x78, 0x61] ∧
    hexToken 0x10 = [0x30, 0x78, 0x31, 0x30] ∧ hexToken 0x1A = [0x30, 0x78, 0x31, 0x61] ∧
    hexToken 0xA0 = [0x30, 0x78, 0x61, 0x30] ∧ hexToken 0xFF = [0x30, 0x78, 0x66, 0x66] := by decide

theorem test_hexString : hexString 0x1A = "0x1a" ∧ hexString 0x0F = "0xf" := by decide +kernel

/-- V-BYTE-15 and V-BYTE-4. -/
theorem test_byteOfBits : byteOfBits false false false true true false true false = 0x1A ∧
    byteOfBits true false false false false false false false = 0x80 := by decide

/-- V-SINK-3: eleven characters, the last a space. -/
theorem test_render : render [hexToken 0x00, hexToken 0xFF] =
    [0x30, 0x78, 0x30, 0x2C, 0x20, 0x30, 0x78, 0x66, 0x66, 0x2C, 0x20] := by decide

/-- V-NEG-9: 256 is not black and -1 is not white (R61). -/
theorem test_classifyInt : classifyInt 256 = .other ∧ classifyInt (-1) = .other ∧ classifyInt 255 = .white1 := by decide

/-- V-NEG-2: no threshold (R90). -/
theorem test_classify : classify 1 = .other ∧ classify 127 = .other ∧ classify 254 = .other ∧
    classify 0 = .black0 ∧ classify 255 = .white1 := by decide

/-- The abstract view of (0x05, 3) is `101` (R12, V-CTL-2). -/
theorem test_acc : (at_ 0x05 3).acc = [true, false, true] := by decide

/-! Witnesses: for each statement with hypotheses, values that meet them all, at the boundaries of the clauses. -/

/-- DecodeReadsTheControlBitsByPriority, StartClearsTheAccumulatorAndEmitsNothing, EndDiscardsThePartialGroup,
PixelWordsAreCanonical. -/
theorem witness_control_bits :
    (0x200#10).getLsbD 9 = true ∧ (0x3FF#10).getLsbD 9 = true ∧
    (0x100#10).getLsbD 9 = false ∧ (0x100#10).getLsbD 8 = true ∧ (0x1FF#10).getLsbD 9 = false ∧
    (0x1FF#10).getLsbD 8 = true ∧ (0x0FF#10).getLsbD 9 = false ∧ (0x0FF#10).getLsbD 8 = false ∧
    OpWord.pix 0x000 = 0x00 ∧ OpWord.pix 0x0FF = 0xFF ∧ OpWord.pix 0x001 ≠ 0x00 ∧ OpWord.pix 0x001 ≠ 0xFF ∧
    OpWord.pix 0x0FE ≠ 0x00 ∧ OpWord.pix 0x0FE ≠ 0xFF := by decide

/-- EncodeThenDecodeGivesTheOperationBack: every constructor, `SKIP` at both ends of its range. -/
theorem witness_wf : Instr.start.wf = true ∧ Instr.endInput.wf = true ∧ Instr.push0.wf = true ∧
    Instr.push1.wf = true ∧ (Instr.skip 1).wf = true ∧ (Instr.skip 254).wf = true := by decide

/-- WideIntensitiesAreSkippedWithoutReduction: values on both sides of each constant. -/
theorem witness_wide : ((-1 : Int) ≠ 0 ∧ (-1 : Int) ≠ 255) ∧ ((1 : Int) ≠ 0 ∧ (1 : Int) ≠ 255) ∧
    ((254 : Int) ≠ 0 ∧ (254 : Int) ≠ 255) ∧ ((256 : Int) ≠ 0 ∧ (256 : Int) ≠ 255) := by decide

/-- Push0ShiftsInAZeroOrCompletesTheByte, Push1ShiftsInAOneOrCompletesTheByte, PushBelowSevenAppendsToTheAccumulator,
PushAtSevenEmitsAllEightBits, OnlyPushesCount: `CNT` at 0, 6 and 7. -/
theorem witness_cnt : (at_ 0 0).cnt.toNat < 7 ∧ (at_ 0x3F 6).cnt.toNat < 7 ∧ (at_ 0x7F 7).cnt.toNat = 7 := by decide

/-- The statements over the start state: FirstPixelOfAGroupIsTheMostSignificantBit,
CounterIsTheClassifiedCountModEight, BytesAppearExactlyAtEveryEighthClassifiedPixel,
TwoStepDesignEmitsTheSameBytes, LeftAlignedDesignEmitsTheSameBytes, and the eight-push clauses of PUSH0 and PUSH1. -/
theorem witness_atStart : State.reset.atStart := by decide

/-- SkipChangesNeitherRegisterNorOutput: both ends of the operand's range. -/
theorem witness_skip_operand : (1 ≤ (0x01#8).toNat ∧ (0x01#8).toNat ≤ 254) ∧
    (1 ≤ (0xFE#8).toNat ∧ (0xFE#8).toNat ≤ 254) := by decide

/-- OnlyTheEighthPushEmits, OnlyStartAndEndMoveTheRunRecords, DataOutputsAreFreeWhileNothingIsEmitted: every
operation gives a next state, without an emission and with one. -/
theorem witness_exec_next :
    exec .start (at_ 0x05 3) = .next (outNone (beginRun (at_ 0x05 3))) ∧
    exec .endInput (at_ 0x05 3) = .next (outNone (beginRun (closeRun (at_ 0x05 3)))) ∧
    exec (.skip 128) (at_ 0x05 3) = .next (outNone (at_ 0x05 3)) ∧
    exec .push0 (at_ 0x05 3) = .next (push false (at_ 0x05 3)) ∧ (push false (at_ 0x05 3)).outValid = false ∧
    exec .push1 (at_ 0x7F 7) = .next (push true (at_ 0x7F 7)) ∧ (push true (at_ 0x7F 7)).outValid = true :=
  ⟨rfl, rfl, rfl, rfl, by decide, rfl, by decide⟩

/-- A state with a white pixel on the port. -/
def withWhite : State := { at_ 0x7F 7 with input := [InPort.ofWord 0x0FF, InPort.quiet] }

/-- StepRunsThePresentedOperation: both control lines, `IN_END` alone, and neither. -/
theorem witness_presented : withWhite.input = InPort.ofWord 0x0FF :: [InPort.quiet] ∧
    (∀ w ∈ [0x3FF, 0x1FF, 0x0FF, 0x000], (InPort.ofWord w).hwReset = false ∧ (InPort.ofWord w).inValid = true) ∧
    (InPort.ofWord 0x3FF).inStart = true ∧ (InPort.ofWord 0x3FF).inEnd = true ∧
    (InPort.ofWord 0x1FF).inStart = false ∧ (InPort.ofWord 0x1FF).inEnd = true ∧
    (InPort.ofWord 0x0FF).inStart = false ∧ (InPort.ofWord 0x0FF).inEnd = false := by decide

/-- StepRunsTheWordPlacedForIt: both ends of the range. -/
theorem witness_placed : 0 % 2 ^ 16 < 1024 ∧ 0x3FF % 2 ^ 16 < 1024 := by decide

/-- NothingPresentedHoldsTheState: both clauses. -/
theorem witness_nothing :
    (at_ 0x05 3).input = [] ∧
    ∃ p rest, { at_ 0x05 3 with input := [InPort.quiet] }.input = p :: rest ∧ p.hwReset = false ∧ p.inValid = false :=
  ⟨rfl, InPort.quiet, [], rfl, rfl, rfl⟩

/-- HardwareResetBeatsThePresentedOperation: with an operation beside it. -/
theorem witness_reset : { at_ 0x05 3 with input := [{ InPort.ofWord 0x0FF with hwReset := true }] }.input =
    { InPort.ofWord 0x0FF with hwReset := true } :: [] ∧
    ({ InPort.ofWord 0x0FF with hwReset := true } : InPort).hwReset = true := by decide

/-- The lines of the port are the bits R31 gives them: `IN_START` alone is 0x200, `IN_END` alone 0x100. -/
theorem test_port_lines :
    ({ InPort.quiet with inStart := true } : InPort).word = 0x200 ∧
    ({ InPort.quiet with inEnd := true } : InPort).word = 0x100 ∧
    ({ InPort.quiet with inPix := 0x80 } : InPort).word = 0x080 := by decide

/-- EveryStepKeepsTheInvariants, OneTokenPerByteInOrder, DataOutputsAreFreeWhileNothingIsEmitted (its step clause): a state at rest whose step emits, and one whose step does not. -/
theorem witness_inv : withWhite.Inv ∧ step withWhite = .next (push true { withWhite with input := [InPort.quiet] }) ∧
    (push true { withWhite with input := [InPort.quiet] }).outValid = true ∧
    (at_ 0x05 3).Inv ∧ step (at_ 0x05 3) = .next (idle (at_ 0x05 3)) ∧ (idle (at_ 0x05 3)).outValid = false :=
  ⟨by decide, rfl, by decide, by decide, rfl, rfl⟩

/-- NoBitIsEverShiftedOut, RegistersRefineTheListOfBits: the largest `SR` at rest with `CNT` at 0, 6 and 7. -/
theorem witness_accumulatorOk : (at_ 0x00 0).accumulatorOk ∧ (at_ 0x3F 6).accumulatorOk ∧ (at_ 0x3F 6).cnt.toNat ≤ 6 ∧
    (at_ 0x7F 7).accumulatorOk ∧ (at_ 0x7F 7).cnt.toNat = 7 := by decide

/-- EmittedBytesStayEmitted: a step that appends. -/
theorem witness_run : Host.Core.run Sys2Proof.core 1 withWhite =
    .next (push true { withWhite with input := [InPort.quiet] }) := rfl

/-- RunThroughThePortsIsTheClosedForm. -/
theorem witness_ports : ∃ s : State, s.atStart ∧
    s.input = presentations (([0, 128, 255] : List Byte).map Instr.ofPix ++ [.endInput]) ++ [InPort.quiet] ∧
    s.runStart = s.out.length :=
  ⟨{ State.reset with input := presentations (([0, 128, 255] : List Byte).map Instr.ofPix ++ [.endInput]) ++
      [InPort.quiet] }, ⟨rfl, rfl⟩, rfl, rfl⟩

/-- EncodeMeetsTheResultGuarantee, OutputLengthLaws, EncodeOfAConcatenation: eight classified pixels, and five. -/
theorem witness_lengths :
    0 < (classifiedBits [0, 255, 0, 255, 0, 255, 0, 255]).length / 8 ∧
    (∀ v ∈ ([0, 255, 0, 255, 0, 255, 0, 255] : List Int), v = 0 ∨ v = 255) ∧
    8 ∣ ([0, 255, 0, 255, 0, 255, 0, 255] : List Int).length ∧
    (classifiedBits [255, 255, 255, 255, 255]).length < 8 ∧
    8 ∣ (classifiedBits [0, 255, 0, 255, 7, 0, 255, 0, 255]).length ∧ (7 : Int) ≠ 0 ∧ (7 : Int) ≠ 255 := by decide

/-- EmptyAndAllSkippedInputsEmitNothing. -/
theorem witness_skipped : ∀ v ∈ ([1, 254, 127, 128, 2, 253] : List Int), v ≠ 0 ∧ v ≠ 255 := by decide

/-- OnlyPushesCount: an operation that increments `CNT`. -/
theorem witness_increment : exec .push0 (at_ 0x05 3) = .next (push false (at_ 0x05 3)) ∧
    (push false (at_ 0x05 3)).cnt.toNat = (at_ 0x05 3).cnt.toNat + 1 := ⟨rfl, by decide⟩

/-- NoStateCrossesADelimiter: two different states, and each of the three delimiters. -/
theorem witness_delimiter :
    { at_ 0x05 3 with input := [InPort.ofWord 0x200, InPort.ofWord 0x0FF] }.input =
      InPort.ofWord 0x200 :: [InPort.ofWord 0x0FF] ∧
    { at_ 0x7F 7 with input := [InPort.ofWord 0x200, InPort.ofWord 0x0FF] }.input =
      InPort.ofWord 0x200 :: [InPort.ofWord 0x0FF] ∧
    (InPort.ofWord 0x200).delimits = true ∧ (InPort.ofWord 0x1FF).delimits = true ∧
    InPort.resetPulse.delimits = true := by decide

/-- EveryStepKeepsTheGroupingOfTheBitsSoFar: seven bits held, the eighth presented; and the start state. -/
theorem witness_holdsBits : withWhite.holdsBits [] [true, true, true, true, true, true, true] ∧
    State.reset.holdsBits [] [] := by decide

/-- AgreeingStatesStepToAgreeingStates: two states that differ in their histories. -/
theorem witness_agreeing : withWhite.sr = { withWhite with out := [0xAA], runStart := 1 }.sr ∧
    withWhite.cnt = { withWhite with out := [0xAA], runStart := 1 }.cnt ∧
    withWhite.input = { withWhite with out := [0xAA], runStart := 1 }.input := ⟨rfl, rfl, rfl⟩

/-- TwoStepDesignKeepsItsRegistersEqual, LeftAlignedDesignKeepsItsRegisterAligned: `CNT` at 0 and 7, the operations of
witness_exec_next. -/
theorem witness_tracks :
    (⟨0x00, 0⟩ : TwoPhaseRegs).tracks (at_ 0x00 0) ∧ (⟨0x7F, 7⟩ : TwoPhaseRegs).tracks (at_ 0x7F 7) ∧
    (⟨0x00, 0⟩ : LeftRegs).tracks (at_ 0x00 0) ∧ (⟨0xFE, 7⟩ : LeftRegs).tracks (at_ 0x7F 7) ∧
    (at_ 0x00 0).accumulatorOk ∧ (at_ 0x7F 7).accumulatorOk := by decide

end Sys2Proof.Tests
end

/-! ## What an operation and a step can do

The case split of `Instr` with the two pushes as one case, the inversion of `step`, and the fields that `push`
writes. -/

namespace Sys2Proof.Machine

/-- The two pushes differ only in the bit (R87, R88), so that a proof over the operations treats them as one case. -/
theorem instr_cases (i : Instr) :
    i = .start ∨ i = .endInput ∨ (∃ b, i = pushOf b) ∨ ∃ v, i = .skip v := by
  cases i with
  | start => exact .inl rfl
  | endInput => exact .inr (.inl rfl)
  | push0 => exact .inr (.inr (.inl ⟨false, rfl⟩))
  | push1 => exact .inr (.inr (.inl ⟨true, rfl⟩))
  | skip v => exact .inr (.inr (.inr ⟨v, rfl⟩))

theorem exec_pushOf (b : Bool) (s : State) : exec (pushOf b) s = .next (push b s) := by
  cases b <;> rfl

theorem listStep_pushOf (b : Bool) (acc : List Bool) : listStep (pushOf b) acc = listPush acc b := by
  cases b <;> rfl

theorem step_of_takeInput_nothing {s : State} (h : (takeInput s).1 = .nothing) :
    step s = .next (idle { s with input := s.input.tail }) := by
  simpa [h] using step_inversion s

theorem step_of_takeInput_hardwareReset {s : State} (h : (takeInput s).1 = .hardwareReset) :
    step s = .next (hardwareReset { s with input := s.input.tail }) := by
  simpa [h] using step_inversion s

theorem step_of_takeInput_operation {s : State} {w : OpWord} (h : (takeInput s).1 = .operation w) :
    step s = exec (decode w) { s with input := s.input.tail } := by
  simpa [h] using step_inversion s

/-- `step_inversion` read from the state a step answers. -/
theorem step_next_cases {s t : State} (h : step s = .next t) :
    ((takeInput s).1 = .nothing ∧ t = idle { s with input := s.input.tail }) ∨
    ((takeInput s).1 = .hardwareReset ∧ t = hardwareReset { s with input := s.input.tail }) ∨
    ∃ w, (takeInput s).1 = .operation w ∧ exec (decode w) { s with input := s.input.tail } = .next t := by
  obtain ⟨hp, e⟩ | ⟨hp, e⟩ | ⟨w, hp, e⟩ := step_inversion s
  · exact .inl ⟨hp, (Host.Outcome.next.inj (e.symm.trans h)).symm⟩
  · exact .inr (.inl ⟨hp, (Host.Outcome.next.inj (e.symm.trans h)).symm⟩)
  · exact .inr (.inr ⟨w, hp, e.symm.trans h⟩)

theorem push_sr (b : Bool) (s : State) : (push b s).sr = if s.cnt = 7 then 0 else shiftIn s.sr b := by
  obtain ⟨hc, e⟩ | ⟨hc, e⟩ := push_cases b s
  · rw [e, if_neg hc]; rfl
  · rw [e, if_pos hc]; rfl

/-- `CNT` counts modulo 8, so clearing it at the eighth push is its own wrap-around (R105). -/
theorem push_cnt (b : Bool) (s : State) : (push b s).cnt = s.cnt + 1 := by
  obtain ⟨-, e⟩ | ⟨hc, e⟩ := push_cases b s
  · simp [e]
  · simp [e, hc]

theorem toNat_succ_of_ne_seven {cnt : Count} (h : cnt ≠ 7) : (cnt + 1).toNat = cnt.toNat + 1 := by
  bv_omega

/-! ## What a step emits -/

@[simp] theorem emission_outNone (s : State) : (outNone s).emission = none := rfl
@[simp] theorem emission_outEmit (b : Byte) (s : State) : (outEmit b s).emission = some b := rfl
@[simp] theorem emission_clearAcc (s : State) : (clearAcc s).emission = s.emission := rfl

theorem emission_of_outValid {s : State} (h : s.outValid = true) : s.emission = some s.outByte := if_pos h

/-- From `s` to `t` the block emitted `o`: it is what the port shows, what `OUT` grew by, and the token is its (R32). -/
def Emits (s t : State) (o : Option Byte) : Prop :=
  t.emission = o ∧ t.out = s.out ++ o.toList ∧ ∀ b, o = some b → t.outTok = hexToken b

theorem emits_outNone {s u : State} (h : u.out = s.out) : Emits s (outNone u) none :=
  ⟨rfl, by simp [h], nofun⟩

theorem emits_clearAcc_outEmit (b : Byte) (s : State) : Emits s (clearAcc (outEmit b s)) (some b) :=
  ⟨rfl, rfl, fun _ h => congrArg hexToken (Option.some.inj h)⟩

theorem emits_push (b : Bool) (s : State) :
    Emits s (push b s) (if s.cnt = 7 then some (shiftIn s.sr b) else none) := by
  obtain ⟨hc, e⟩ | ⟨hc, e⟩ := push_cases b s
  · rw [e, if_neg hc]; exact emits_outNone rfl
  · rw [e, if_pos hc]; exact emits_clearAcc_outEmit _ s

theorem Emits.emittedBetween {s t : State} {o : Option Byte} (h : Emits s t o) :
    emittedBetween s t = o.toList := by
  obtain ⟨-, hout, -⟩ := h
  rw [Machine.emittedBetween, hout, List.drop_left]

/-- Whatever the state before, the port after an emission or none is in order (R32). -/
theorem Emits.portOk {s t : State} {o : Option Byte} (h : Emits s t o) : t.portOk := by
  obtain ⟨hem, hout, htok⟩ := h
  intro hv
  have ho : o = some t.outByte := hem.symm.trans (emission_of_outValid hv)
  exact ⟨htok _ ho, by simp [hout, ho]⟩

theorem Emits.length_out_le {s t : State} {o : Option Byte} (h : Emits s t o) : s.out.length ≤ t.out.length := by
  obtain ⟨-, hout, -⟩ := h
  simp [hout]

/-! ## `SR < 2^CNT`, the invariant at rest of R13 -/

theorem toNat_lt_128_of_accumulatorOk {s : State} (h : s.accumulatorOk) : s.sr.toNat < 128 :=
  calc s.sr.toNat < 2 ^ s.cnt.toNat := h
    _ ≤ 2 ^ 7 := Nat.pow_le_pow_right (by decide) (Nat.le_of_lt_succ s.cnt.isLt)

/-- Under R13 the modulus of `shiftIn_toNat` is not reached: bit 7 of `SR` is clear. -/
theorem shiftIn_toNat_of_accumulatorOk {s : State} (b : Bool) (h : s.accumulatorOk) :
    (shiftIn s.sr b).toNat = s.sr.toNat * 2 + b.toNat := by
  have hsr := toNat_lt_128_of_accumulatorOk h
  have hb := b.toNat_le
  rw [shiftIn_toNat, Nat.mod_eq_of_lt (by omega)]

theorem shiftIn_toNat_lt_of_accumulatorOk {s : State} (b : Bool) (h : s.accumulatorOk) :
    (shiftIn s.sr b).toNat < 2 ^ (s.cnt.toNat + 1) := by
  have hsr : s.sr.toNat < 2 ^ s.cnt.toNat := h
  have hb := b.toNat_le
  rw [shiftIn_toNat_of_accumulatorOk b h, Nat.pow_succ]
  omega

theorem accumulatorOk_of_atStart {s : State} (h : s.atStart) : s.accumulatorOk := by
  obtain ⟨hsr, hcnt⟩ := h
  simp [State.accumulatorOk, hsr, hcnt]

theorem accumulatorOk_push (b : Bool) {s : State} (h : s.accumulatorOk) : (push b s).accumulatorOk := by
  rw [State.accumulatorOk, push_sr, push_cnt]
  split
  · next hc => simp [hc]
  · next hc => rw [toNat_succ_of_ne_seven hc]; exact shiftIn_toNat_lt_of_accumulatorOk b h

/-- Settles O30: R13 bounds the shifted value by `2^(CNT+1)`, which is at most 128 below seven held bits. -/
theorem noBitIsEverShiftedOut : Obligations.NoBitIsEverShiftedOut := by
  intro s b h
  refine ⟨shiftIn_toNat_of_accumulatorOk b h, fun hc => ?_, fun _ => ?_⟩
  · have hlt : (shiftIn s.sr b).toNat < 2 ^ 7 :=
      Nat.lt_of_lt_of_le (shiftIn_toNat_lt_of_accumulatorOk b h)
        (Nat.pow_le_pow_right (by decide) (Nat.succ_le_succ hc))
    omega
  · exact Nat.le_of_lt_succ (toNat_lt_128_of_accumulatorOk h)

/-! ## The three invariants together -/

/-- `START`, `END` and the hardware reset all end in this form. -/
theorem inv_outNone_beginRun (s : State) : (outNone (beginRun s)).Inv :=
  ⟨accumulatorOk_of_atStart ⟨rfl, rfl⟩, nofun, le_rfl⟩

theorem inv_outNone {s : State} (h : s.Inv) : (outNone s).Inv := by
  obtain ⟨hacc, -, hhist⟩ := h
  exact ⟨hacc, nofun, hhist⟩

theorem inv_push (b : Bool) {s : State} (h : s.Inv) : (push b s).Inv := by
  obtain ⟨hacc, -, hhist⟩ := h
  have hem := emits_push b s
  refine ⟨accumulatorOk_push b hacc, hem.portOk, ?_⟩
  rw [State.historyOk, push_runStart]
  exact Nat.le_trans hhist hem.length_out_le

theorem exec_keeps_inv {i : Instr} {s t : State} (hs : s.Inv) (h : exec i s = .next t) : t.Inv := by
  obtain rfl | rfl | ⟨b, rfl⟩ | ⟨v, rfl⟩ := instr_cases i
  · cases h; exact inv_outNone_beginRun s
  · cases h; exact inv_outNone_beginRun (closeRun s)
  · rw [exec_pushOf] at h; cases h; exact inv_push b hs
  · cases h; exact inv_outNone hs

/-- Settles O28: the state after reset is the hardware reset of the power-on state. -/
theorem resetMeetsTheInvariants : Obligations.ResetMeetsTheInvariants := by
  rw [Obligations.ResetMeetsTheInvariants, ← hardwareReset_powerOn]
  exact inv_outNone_beginRun State.powerOn

/-- Settles O29: `Inv` does not speak of the stream, so it passes to the state with the presentation taken, and from
there idling, the reset and every operation keep it. -/
theorem everyStepKeepsTheInvariants : Obligations.EveryStepKeepsTheInvariants := by
  intro s t hs h
  have hs' : State.Inv { s with input := s.input.tail } := hs
  obtain ⟨-, rfl⟩ | ⟨-, rfl⟩ | ⟨w, -, hw⟩ := step_next_cases h
  · exact inv_outNone hs'
  · exact inv_outNone_beginRun _
  · exact exec_keeps_inv hs' hw

/-! ## Two states that agree on what determines the emissions (R19, R78) -/

/-- The part of the state that later emissions depend on: the two registers and the stream (R19). -/
def Agrees (s1 s2 : State) : Prop := s1.sr = s2.sr ∧ s1.cnt = s2.cnt ∧ s1.input = s2.input

/-- From agreeing states to agreeing states, with one and the same emission. -/
def StepsAlike (s1 s2 t1 t2 : State) : Prop := Agrees t1 t2 ∧ ∃ o, Emits s1 t1 o ∧ Emits s2 t2 o

theorem stepsAlike_outNone {s1 s2 : State} (h : Agrees s1 s2) : StepsAlike s1 s2 (outNone s1) (outNone s2) :=
  ⟨h, none, emits_outNone rfl, emits_outNone rfl⟩

/-- The run records may differ before `beginRun`; the registers need not agree. -/
theorem stepsAlike_outNone_beginRun {s1 s2 u1 u2 : State} (hin : u1.input = u2.input) (h1 : u1.out = s1.out)
    (h2 : u2.out = s2.out) : StepsAlike s1 s2 (outNone (beginRun u1)) (outNone (beginRun u2)) :=
  ⟨⟨rfl, rfl, hin⟩, none, emits_outNone h1, emits_outNone h2⟩

theorem stepsAlike_push (b : Bool) {s1 s2 : State} (h : Agrees s1 s2) :
    StepsAlike s1 s2 (push b s1) (push b s2) := by
  obtain ⟨hsr, hcnt, hin⟩ := h
  refine ⟨⟨?_, ?_, ?_⟩, _, emits_push b s1, ?_⟩
  · rw [push_sr, push_sr, hsr, hcnt]
  · rw [push_cnt, push_cnt, hcnt]
  · rw [push_input, push_input, hin]
  · rw [hsr, hcnt]; exact emits_push b s2

theorem exec_stepsAlike (i : Instr) {s1 s2 : State} (h : Agrees s1 s2) :
    ∃ t1 t2, exec i s1 = .next t1 ∧ exec i s2 = .next t2 ∧ StepsAlike s1 s2 t1 t2 := by
  have ⟨_, _, hin⟩ := h
  obtain rfl | rfl | ⟨b, rfl⟩ | ⟨v, rfl⟩ := instr_cases i
  · exact ⟨_, _, exec_start s1, exec_start s2, stepsAlike_outNone_beginRun hin rfl rfl⟩
  · exact ⟨_, _, exec_endInput s1, exec_endInput s2, stepsAlike_outNone_beginRun hin rfl rfl⟩
  · exact ⟨_, _, exec_pushOf b s1, exec_pushOf b s2, stepsAlike_push b h⟩
  · exact ⟨_, _, exec_skip v s1, exec_skip v s2, stepsAlike_outNone h⟩

/-- What is presented is read off the stream alone (R31). -/
theorem takeInput_fst_congr {s1 s2 : State} (h : s1.input = s2.input) : (takeInput s1).1 = (takeInput s2).1 := by
  unfold takeInput
  rw [h]
  cases s2.input <;> rfl

theorem step_stepsAlike {s1 s2 : State} (h : Agrees s1 s2) :
    ∃ t1 t2, step s1 = .next t1 ∧ step s2 = .next t2 ∧ StepsAlike s1 s2 t1 t2 := by
  have ⟨hsr, hcnt, hin⟩ := h
  have htail := congrArg List.tail hin
  have hp := takeInput_fst_congr hin
  have h' : Agrees { s1 with input := s1.input.tail } { s2 with input := s2.input.tail } := ⟨hsr, hcnt, htail⟩
  cases hp1 : (takeInput s1).1 with
  | nothing =>
    exact ⟨_, _, step_of_takeInput_nothing hp1, step_of_takeInput_nothing (hp.symm.trans hp1), stepsAlike_outNone h'⟩
  | hardwareReset =>
    exact ⟨_, _, step_of_takeInput_hardwareReset hp1, step_of_takeInput_hardwareReset (hp.symm.trans hp1),
      stepsAlike_outNone_beginRun htail rfl rfl⟩
  | operation w =>
    rw [step_of_takeInput_operation hp1, step_of_takeInput_operation (hp.symm.trans hp1)]
    exact exec_stepsAlike (decode w) h'

/-- Settles O52: both states see the same presentation and answer it alike, whatever their histories. -/
theorem agreeingStatesStepToAgreeingStates : Obligations.AgreeingStatesStepToAgreeingStates := by
  intro s1 s2 hsr hcnt hin
  obtain ⟨t1, t2, e1, e2, ⟨hsr', hcnt', hin'⟩, o, h1, h2⟩ := step_stepsAlike ⟨hsr, hcnt, hin⟩
  have hout : emittedBetween s1 t1 = emittedBetween s2 t2 := h1.emittedBetween.trans h2.emittedBetween.symm
  obtain ⟨hem1, -, htok1⟩ := h1
  obtain ⟨hem2, -, htok2⟩ := h2
  refine ⟨t1, t2, e1, e2, hsr', hcnt', hin', hem1.trans hem2.symm, fun hne => ?_, hout⟩
  obtain ⟨b, hb⟩ := Option.ne_none_iff_exists'.1 (hem1 ▸ hne)
  exact (htok1 b hb).trans (htok2 b hb).symm

/-! ## `ACC`, the list of pending bits (R12) -/

theorem length_acc (s : State) : s.acc.length = s.cnt.toNat := length_accBits s.sr s.cnt.toNat

theorem length_acc_lt (s : State) : s.acc.length < 8 := by
  rw [length_acc]; exact s.cnt.isLt

theorem acc_of_cnt_eq_zero {s : State} (h : s.cnt = 0) : s.acc = [] := by
  rw [State.acc, h]; rfl

/-- The low bits of `SR` from the top down are its base-2 number (R12, R58), read on from `a`. -/
theorem bitsValue_accBits (sr : Byte) (n a : Nat) :
    bitsValue a (accBits sr n) = a * 2 ^ n + sr.toNat % 2 ^ n := by
  induction n generalizing a with
  | zero => simp [accBits, bitsValue, Nat.mod_one]
  | succ n ih =>
    have hbit : sr.toNat % 2 ^ (n + 1) = sr.toNat % 2 ^ n + 2 ^ n * (sr.getLsbD n).toNat := by
      rw [Nat.mod_pow_succ, ← BitVec.testBit_toNat, Nat.toNat_testBit]
    rw [accBits, bitsValue, ih, hbit]
    ring

theorem bitsValue_acc {s : State} (h : s.accumulatorOk) : bitsValue 0 s.acc = s.sr.toNat := by
  rw [State.acc, bitsValue_accBits, Nat.mod_eq_of_lt h, Nat.zero_mul, Nat.zero_add]

/-- At the eighth push the pending bits and the new one are all eight bits of the byte (R101). -/
theorem acc_append_of_cnt_eq_seven {s : State} (b : Bool) (h : s.cnt = 7) :
    s.acc ++ [b] = accBits (shiftIn s.sr b) 8 := by
  rw [State.acc, h]
  exact (accBits_shiftIn s.sr 7 b (by decide)).symm

theorem acc_push (b : Bool) (s : State) : (push b s).acc = if s.cnt = 7 then [] else s.acc ++ [b] := by
  split
  · next hc => exact acc_of_cnt_eq_zero (by rw [push_cnt, hc]; rfl)
  · next hc =>
    rw [State.acc, push_sr, push_cnt, if_neg hc, toNat_succ_of_ne_seven hc, accBits_shiftIn _ _ _ s.cnt.isLt]
    rfl

theorem length_acc_succ_eq_group_iff (s : State) : s.acc.length + 1 = Config.group ↔ s.cnt = 7 := by
  rw [length_acc, Config.group]
  constructor <;> intro h <;> bv_omega

/-- The source's push on the list of pending bits is the machine's push on the registers (R12, R100, R101). -/
theorem listPush_acc (s : State) (b : Bool) : listPush s.acc b = ((push b s).acc, (push b s).emission) := by
  obtain ⟨hem, -, -⟩ := emits_push b s
  rw [hem, acc_push, listPush]
  by_cases hc : s.cnt = 7
  · have hbyte : BitVec.ofNat 8 (bitsValue 0 (s.acc ++ [b])) = shiftIn s.sr b := by
      rw [acc_append_of_cnt_eq_seven b hc, bitsValue_accBits, Nat.zero_mul, Nat.zero_add,
        Nat.mod_eq_of_lt (shiftIn s.sr b).isLt, BitVec.ofNat_toNat, BitVec.setWidth_eq]
    rw [if_pos ((length_acc_succ_eq_group_iff s).2 hc), if_pos hc, if_pos hc, hbyte]
  · rw [if_neg (mt (length_acc_succ_eq_group_iff s).1 hc), if_neg hc, if_neg hc]

/-- Settles O45: the pushes are `listPush_acc`; no other operation reads the pending bits. -/
theorem registersRefineTheListOfBits : Obligations.RegistersRefineTheListOfBits := by
  intro i s hs
  refine ⟨(bitsValue_acc hs).symm, (length_acc s).symm, ?_⟩
  obtain rfl | rfl | ⟨b, rfl⟩ | ⟨v, rfl⟩ := instr_cases i
  · exact ⟨_, exec_start s, rfl⟩
  · exact ⟨_, exec_endInput s, rfl⟩
  · exact ⟨_, exec_pushOf b s, (listStep_pushOf b s.acc).trans (listPush_acc s b)⟩
  · exact ⟨_, exec_skip v s, rfl⟩

/-! ## The bits of the run so far, in whole groups and the rest (R11, R12, R74, R105) -/

/-- The eight bits of a byte, grouped, are the byte (R34). -/
theorem bytesOfBits_accBits_eight (x : Byte) : bytesOfBits (accBits x 8) = [x] := by
  revert x; decide +kernel

theorem length_bytesOfBits (bits : List Bool) : (bytesOfBits bits).length = bits.length / 8 := by
  induction bits using bytesOfBits.induct with
  | case1 b1 b2 b3 b4 b5 b6 b7 b8 rest ih =>
    simp only [bytesOfBits, List.length_cons, ih]
    omega
  | case2 bits h =>
    have hlt := length_lt_of_no_group bits h
    rw [bytesOfBits_of_short bits hlt, Nat.div_eq_of_lt hlt]
    rfl

/-- `holdsBits` without division: the bits are some whole groups, whose bytes are out, and then `ACC`. -/
theorem holdsBits_iff (s : State) (base : List Byte) (bits : List Bool) :
    s.holdsBits base bits ↔
      (∃ g, 8 ∣ g.length ∧ bits = g ++ s.acc ∧ s.out = base ++ bytesOfBits g) ∧ s.accumulatorOk := by
  have hlt := length_acc_lt s
  constructor
  · rintro ⟨hout, hacc, -, hok⟩
    have hsplit : bits = bits.take (8 * (bits.length / 8)) ++ s.acc := by rw [hacc, List.take_append_drop]
    have hdvd : 8 ∣ (bits.take (8 * (bits.length / 8))).length := by
      rw [List.length_take_of_le (Nat.mul_div_le _ _)]; exact Nat.dvd_mul_right 8 _
    refine ⟨⟨_, hdvd, hsplit, ?_⟩, hok⟩
    rw [hout]
    conv_lhs => rw [hsplit, bytesOfBits_append _ _ hdvd, bytesOfBits_of_short _ hlt, List.append_nil]
  · rintro ⟨⟨g, hdvd, rfl, hout⟩, hok⟩
    have hlen : 8 * ((g ++ s.acc).length / 8) = g.length := by rw [List.length_append]; omega
    refine ⟨?_, ?_, ?_, hok⟩
    · rw [bytesOfBits_append _ _ hdvd, bytesOfBits_of_short _ hlt, List.append_nil, hout]
    · rw [hlen, List.drop_left]
    · rw [List.length_append, ← length_acc]; omega

theorem holdsBits_of_atStart {s : State} (h : s.atStart) : s.holdsBits s.out [] := by
  have ⟨_, hcnt⟩ := h
  exact (holdsBits_iff s s.out []).2
    ⟨⟨[], by simp, by rw [acc_of_cnt_eq_zero hcnt]; rfl, by simp [bytesOfBits]⟩, accumulatorOk_of_atStart h⟩

/-- Where the bits begin anew, everything emitted so far is the base. -/
theorem holdsBits_outNone_beginRun {s u : State} {base : List Byte} {bits : List Bool} (h : s.holdsBits base bits)
    (hu : u.out = s.out) : (outNone (beginRun u)).holdsBits (base ++ bytesOfBits bits) [] := by
  obtain ⟨hout, -, -, -⟩ := h
  have hstart := holdsBits_of_atStart (s := outNone (beginRun u)) ⟨rfl, rfl⟩
  rwa [outNone_out, beginRun_out, hu, hout] at hstart

theorem holdsBits_outNone {s : State} {base : List Byte} {bits : List Bool} (h : s.holdsBits base bits) :
    (outNone s).holdsBits base bits := h

/-- A push below seven lengthens the rest; the eighth turns the rest into one more whole group, whose byte it emits. -/
theorem holdsBits_push (b : Bool) {s : State} {base : List Byte} {bits : List Bool} (h : s.holdsBits base bits) :
    (push b s).holdsBits base (bits ++ [b]) := by
  obtain ⟨⟨g, hdvd, rfl, hout⟩, hok⟩ := (holdsBits_iff s base bits).1 h
  obtain ⟨-, hgrow, -⟩ := emits_push b s
  refine (holdsBits_iff _ _ _).2 ⟨?_, accumulatorOk_push b hok⟩
  rw [acc_push, hgrow, hout]
  by_cases hc : s.cnt = 7
  · have hgroup := acc_append_of_cnt_eq_seven b hc
    refine ⟨g ++ (s.acc ++ [b]), ?_, ?_, ?_⟩
    · rw [List.length_append, hgroup, length_accBits]; exact Nat.dvd_add_self_right.2 hdvd
    · rw [if_pos hc, List.append_nil, List.append_assoc]
    · rw [if_pos hc, bytesOfBits_append _ _ hdvd, hgroup, bytesOfBits_accBits_eight, List.append_assoc]; rfl
  · exact ⟨g, hdvd, by rw [if_neg hc, List.append_assoc], by rw [if_neg hc]; exact List.append_nil _⟩

theorem bitsAfter_pushOf {w : OpWord} {b : Bool} (h : decode w = pushOf b) (bits : List Bool) :
    bitsAfter (.operation w) bits = bits ++ [b] := by
  cases b <;> simp [bitsAfter, h, pushOf]

theorem baseAfter_pushOf {w : OpWord} {b : Bool} (h : decode w = pushOf b) (base : List Byte) (bits : List Bool) :
    baseAfter (.operation w) base bits = base := by
  cases b <;> simp [baseAfter, h, pushOf]

theorem exec_decode_keeps_holdsBits {w : OpWord} {s t : State} {base : List Byte} {bits : List Bool}
    (hs : s.holdsBits base bits) (h : exec (decode w) s = .next t) :
    t.holdsBits (baseAfter (.operation w) base bits) (bitsAfter (.operation w) bits) := by
  obtain hi | hi | ⟨b, hi⟩ | ⟨v, hi⟩ := instr_cases (decode w) <;> rw [hi] at h
  · cases h; simpa only [baseAfter, bitsAfter, hi] using holdsBits_outNone_beginRun hs rfl
  · cases h; simpa only [baseAfter, bitsAfter, hi] using holdsBits_outNone_beginRun (u := closeRun s) hs rfl
  · rw [exec_pushOf] at h; cases h
    rw [bitsAfter_pushOf hi, baseAfter_pushOf hi]
    exact holdsBits_push b hs
  · cases h; simpa only [baseAfter, bitsAfter, hi] using holdsBits_outNone hs

/-- Settles O51: `holdsBits` does not speak of the stream, so it passes to the state with the presentation taken. -/
theorem everyStepKeepsTheGroupingOfTheBitsSoFar : Obligations.EveryStepKeepsTheGroupingOfTheBitsSoFar := by
  intro s t base bits hs h
  have hs' : State.holdsBits { s with input := s.input.tail } base bits := hs
  obtain ⟨hp, rfl⟩ | ⟨hp, rfl⟩ | ⟨w, hp, hw⟩ := step_next_cases h <;> rw [hp]
  · exact holdsBits_outNone hs'
  · exact holdsBits_outNone_beginRun hs' rfl
  · exact exec_decode_keeps_holdsBits hs' hw

/-! ## A run of pixels (R74, R86) -/

theorem classifiedBits_cons (v : Int) (vs : List Int) :
    classifiedBits (v :: vs) = (bitOfClass (classifyInt v)).toList ++ classifiedBits vs := by
  rw [classifiedBits, List.filterMap_cons]
  cases bitOfClass (classifyInt v) <;> rfl

/-- A pixel operation pushes the bit of its class, or it is a `SKIP` (R85, R91). -/
theorem ofIntensity_cases (v : Int) :
    (∃ b, bitOfClass (classifyInt v) = some b ∧ Instr.ofIntensity v = pushOf b) ∨
    (bitOfClass (classifyInt v) = none ∧ ∃ u, Instr.ofIntensity v = .skip u) := by
  rw [Instr.ofIntensity]
  cases classifyInt v with
  | black0 => exact .inl ⟨false, rfl, rfl⟩
  | white1 => exact .inl ⟨true, rfl, rfl⟩
  | other =>
    refine .inr ⟨rfl, ?_⟩
    dsimp only
    split <;> exact ⟨_, rfl⟩

theorem exec_ofIntensity_holdsBits (v : Int) {s : State} {base : List Byte} {bits : List Bool}
    (h : s.holdsBits base bits) :
    ∃ t, exec (Instr.ofIntensity v) s = .next t ∧
      t.holdsBits base (bits ++ (bitOfClass (classifyInt v)).toList) := by
  obtain ⟨b, hb, hi⟩ | ⟨hb, u, hi⟩ := ofIntensity_cases v <;> rw [hb, hi]
  · exact ⟨_, exec_pushOf b s, holdsBits_push b h⟩
  · refine ⟨_, exec_skip u s, ?_⟩
    rw [Option.toList_none, List.append_nil]
    exact holdsBits_outNone h

/-- From any state that holds some bits, not the start state only: the pixels add their classified bits to them. -/
theorem runOps_pixels_holdsBits (vs : List Int) {s : State} {base : List Byte} {bits : List Bool}
    (h : s.holdsBits base bits) :
    ∃ t, runOps (vs.map Instr.ofIntensity) s = .next t ∧ t.holdsBits base (bits ++ classifiedBits vs) := by
  induction vs generalizing s bits with
  | nil => exact ⟨s, rfl, by rwa [classifiedBits, List.filterMap_nil, List.append_nil]⟩
  | cons v vs ih =>
    obtain ⟨u, hu, hbits⟩ := exec_ofIntensity_holdsBits v h
    obtain ⟨t, ht, hrest⟩ := ih hbits
    refine ⟨t, by rw [List.map_cons, runOps, hu]; exact ht, ?_⟩
    rwa [classifiedBits_cons, ← List.append_assoc]

/-- Settles O34: the start state holds no bits, on the base of what is out. -/
theorem counterIsTheClassifiedCountModEight : Obligations.CounterIsTheClassifiedCountModEight := by
  intro s vs hs
  obtain ⟨t, ht, hout, hacc, hcnt, hok⟩ := runOps_pixels_holdsBits vs (holdsBits_of_atStart hs)
  rw [List.nil_append] at hout hacc hcnt
  exact ⟨t, ht, hcnt, by rw [hout, List.length_append, length_bytesOfBits], hout, hacc, hok⟩

end Sys2Proof.Machine

/-! ## A group of eight pushes (R34)

The pending bits after seven pushes are the seven bits in order of arrival; the eighth push emits the byte whose bits,
from bit 7 down, are those and its own. -/

namespace Sys2Proof.Machine

theorem runOps_append_of_next {is : List Instr} {s u : State} (h : runOps is s = .next u) (js : List Instr) :
    runOps (is ++ js) s = runOps js u := by
  induction is generalizing s with
  | nil => cases h; rfl
  | cons i is ih =>
    rw [List.cons_append, runOps]
    rw [runOps] at h
    cases hi : exec i s <;> simp only [hi, reduceCtorEq] at h ⊢
    exact ih h

/-- As for the pixels, from any state that holds some bits. -/
theorem runOps_pushes_holdsBits (bs : List Bool) {s : State} {base : List Byte} {bits : List Bool}
    (h : s.holdsBits base bits) :
    ∃ t, runOps (bs.map pushOf) s = .next t ∧ t.holdsBits base (bits ++ bs) := by
  induction bs generalizing s bits with
  | nil => exact ⟨s, rfl, by rwa [List.append_nil]⟩
  | cons b bs ih =>
    obtain ⟨t, ht, hrest⟩ := ih (holdsBits_push b h)
    refine ⟨t, by rw [List.map_cons, runOps, exec_pushOf]; exact ht, ?_⟩
    rwa [List.append_cons]

/-- Fewer than eight bits after the start state are all pending, and nothing is emitted yet. -/
theorem runOps_pushes_of_short {bs : List Bool} (hlen : bs.length < 8) {s : State} (hs : s.atStart) :
    ∃ t, runOps (bs.map pushOf) s = .next t ∧ t.out = s.out ∧ t.acc = bs ∧ t.cnt.toNat = bs.length := by
  obtain ⟨t, ht, hout, hacc, hcnt, -⟩ := runOps_pushes_holdsBits bs (holdsBits_of_atStart hs)
  rw [List.nil_append] at hout hacc hcnt
  rw [bytesOfBits_of_short bs hlen, List.append_nil] at hout
  rw [Nat.div_eq_of_lt hlen, Nat.mul_zero, List.drop_zero] at hacc
  rw [Nat.mod_eq_of_lt hlen] at hcnt
  exact ⟨t, ht, hout, hacc, hcnt⟩

/-- The eighth push of a group: the start state, and a byte of the pending bits and the new one (R101). -/
theorem push_of_cnt_eq_seven (b : Bool) {s : State} (h : s.cnt = 7) :
    (push b s).atStart ∧ (push b s).outValid = true ∧ (push b s).out = s.out ++ [(push b s).outByte] ∧
      accBits (push b s).outByte 8 = s.acc ++ [b] := by
  rw [push_of_eq b s h]
  exact ⟨⟨rfl, rfl⟩, rfl, rfl, (acc_append_of_cnt_eq_seven b h).symm⟩

theorem toNat_eq_bitsValue_of_accBits {x : Byte} {bits : List Bool} (h : accBits x 8 = bits) :
    x.toNat = bitsValue 0 bits := by
  rw [← h, bitsValue_accBits, Nat.zero_mul, Nat.zero_add, Nat.mod_eq_of_lt x.isLt]

theorem bitsValue_eight (b1 b2 b3 b4 b5 b6 b7 b8 : Bool) :
    bitsValue 0 [b1, b2, b3, b4, b5, b6, b7, b8] =
      b1.toNat * 128 + b2.toNat * 64 + b3.toNat * 32 + b4.toNat * 16 + b5.toNat * 8 + b6.toNat * 4
        + b7.toNat * 2 + b8.toNat * 1 := by
  simp only [bitsValue]
  ring

/-- Settles O32: seven pushes leave their bits pending, and the eighth emits the byte of all eight, whose list of bits
from bit 7 down gives both its value and each single bit. -/
theorem firstPixelOfAGroupIsTheMostSignificantBit : Obligations.FirstPixelOfAGroupIsTheMostSignificantBit := by
  intro s b1 b2 b3 b4 b5 b6 b7 b8 hs
  obtain ⟨u, hu, hout, hacc, hcnt⟩ := runOps_pushes_of_short (bs := [b1, b2, b3, b4, b5, b6, b7]) (by simp) hs
  obtain ⟨hstart, hvalid, hbyte, hbits⟩ := push_of_cnt_eq_seven b8 (BitVec.eq_of_toNat_eq hcnt)
  have hrun : runOps ([b1, b2, b3, b4, b5, b6, b7, b8].map pushOf) s = .next (push b8 u) := by
    refine (runOps_append_of_next hu [pushOf b8]).trans ?_
    rw [runOps, exec_pushOf]; rfl
  rw [hacc] at hbits
  refine ⟨push b8 u, hrun, hstart, hvalid, hout ▸ hbyte, ?_, ?_⟩
  · exact (toNat_eq_bitsValue_of_accBits hbits).trans (bitsValue_eight ..)
  · simpa [accBits] using hbits

end Sys2Proof.Machine

/-! ## `encode` and its guarantees (R72, R74, R75, R76)

A whole run, from `START` to `END`, appends the bytes of the consecutive groups of eight classified bits; the length and
the k-th token of `encode` are read off those groups. -/

namespace Sys2Proof.Machine

/-- Where a run begins the block is in the start state, whatever was pending (R20, R22). -/
theorem atStart_outNone_beginRun (s : State) : (outNone (beginRun s)).atStart := ⟨rfl, rfl⟩

theorem decode_eq_endInput {w : OpWord} (h9 : w.getLsbD 9 = false) (h8 : w.getLsbD 8 = true) :
    decode w = .endInput := by
  rw [decode, h9, h8]; rfl

/-- `END` from any state: the pending bits are gone, and no token was made of them (R72). -/
theorem exec_endInput_discards (s : State) :
    ∃ t, exec .endInput s = .next t ∧ t.atStart ∧ t.outValid = false ∧ t.emission = none ∧ t.out = s.out :=
  ⟨_, exec_endInput s, atStart_outNone_beginRun _, outNone_outValid _, emission_outNone _, rfl⟩

/-- Settles O11: the control bits decide before `PIX` is read, and a second `END` is one more `END` from any state. -/
theorem endDiscardsThePartialGroup : Obligations.EndDiscardsThePartialGroup := by
  refine ⟨fun w h9 h8 => decode_eq_endInput h9 h8, rfl, fun s => ?_⟩
  obtain ⟨t, ht, ⟨hsr, hcnt⟩, hvalid, hem, hout⟩ := exec_endInput_discards s
  obtain ⟨u, hu, ⟨hsr', hcnt'⟩, -, hem', hout'⟩ := exec_endInput_discards t
  exact ⟨t, ht, hsr, hcnt, hvalid, hem, hout, u, hu, hsr'.trans hsr.symm, hcnt'.trans hcnt.symm, hout', hem'⟩

/-- A whole run from any state, whatever it had pending (R70, R74). -/
theorem runOps_runOperations (vs : List Int) (s : State) :
    ∃ t, runOps (runOperations vs) s = .next t ∧ t.atStart ∧ t.out = s.out ++ bytesOfBits (classifiedBits vs) := by
  obtain ⟨u, hu, hout, -, -, -⟩ :=
    runOps_pixels_holdsBits vs (holdsBits_of_atStart (atStart_outNone_beginRun s))
  refine ⟨outNone (beginRun (closeRun u)), ?_, atStart_outNone_beginRun _, hout⟩
  rw [runOperations, runOps, exec_start]
  exact runOps_append_of_next hu [.endInput]

/-- The closed form of `encode_bytes` (R74). -/
theorem encodeBytes_eq_bytesOfBits (vs : List Int) : encodeBytes vs = bytesOfBits (classifiedBits vs) := by
  obtain ⟨t, ht, -, hout⟩ := runOps_runOperations vs State.reset
  rw [encodeBytes, ht]
  exact hout

theorem encodeTokens_eq_map (vs : List Int) : encodeTokens vs = (bytesOfBits (classifiedBits vs)).map hexToken := by
  rw [encodeTokens, encodeBytes_eq_bytesOfBits]

theorem length_encodeTokens (vs : List Int) : (encodeTokens vs).length = (classifiedBits vs).length / 8 := by
  rw [encodeTokens_eq_map, List.length_map, length_bytesOfBits]

theorem byteOfBits_eq_bitsValue (b1 b2 b3 b4 b5 b6 b7 b8 : Bool) :
    byteOfBits b1 b2 b3 b4 b5 b6 b7 b8 = BitVec.ofNat 8 (bitsValue 0 [b1, b2, b3, b4, b5, b6, b7, b8]) := by
  rw [bitsValue_eight, byteOfBits]

/-- The k-th byte is that of the k-th eight bits, as a base-2 number (R58, R75). -/
theorem getElem?_bytesOfBits (bits : List Bool) (k : Nat) (hk : k < bits.length / 8) :
    (bytesOfBits bits)[k]? = some (BitVec.ofNat 8 (bitsValue 0 ((bits.drop (8 * k)).take 8))) := by
  induction bits using bytesOfBits.induct generalizing k with
  | case1 b1 b2 b3 b4 b5 b6 b7 b8 rest ih =>
    rw [bytesOfBits]
    cases k with
    | zero => exact congrArg some (byteOfBits_eq_bitsValue ..)
    | succ k =>
      rw [List.getElem?_cons_succ, ih k (by simp only [List.length_cons] at hk; omega)]
      rfl
  | case2 bits h =>
    rw [Nat.div_eq_of_lt (length_lt_of_no_group bits h)] at hk
    exact absurd hk (Nat.not_lt_zero k)

/-- Settles O36: `encode` is the hex token of each group's byte, group by group. -/
theorem encodeMeetsTheResultGuarantee : Obligations.EncodeMeetsTheResultGuarantee := by
  refine fun vs => ⟨length_encodeTokens vs, fun k hk => ?_⟩
  rw [encodeTokens_eq_map, List.getElem?_map, getElem?_bytesOfBits _ k hk, Option.map_some]

theorem length_classifiedBits_le (vs : List Int) : (classifiedBits vs).length ≤ vs.length :=
  List.length_filterMap_le _ vs

/-- Where nothing is skipped, every pixel is classified (R85). -/
theorem length_classifiedBits_of_black_or_white {vs : List Int} (h : ∀ v ∈ vs, v = 0 ∨ v = 255) :
    (classifiedBits vs).length = vs.length := by
  refine List.filterMap_length_eq_length.2 fun v hv => ?_
  obtain rfl | rfl := h v hv <;> rfl

/-- Settles O37: all three laws are the one length `Nc / 8`; the first holds without its divisibility premise, both
sides being rounded down. -/
theorem outputLengthLaws : Obligations.OutputLengthLaws := by
  refine ⟨fun vs hvs _ => ?_, fun vs => ⟨length_encodeTokens vs, ?_⟩, fun vs hlt => ?_⟩
  · rw [length_encodeTokens, length_classifiedBits_of_black_or_white hvs]
  · exact Nat.div_le_div_right (length_classifiedBits_le vs)
  · rw [encodeTokens_eq_map, bytesOfBits_of_short _ hlt, List.map_nil]

end Sys2Proof.Machine

/-! ## The binarizer (R85 to R89)

Two equality tests on the intensity give the class, the pixel word of an intensity is the canonical word of its
operation, and each of the three pixel operations is a push of the bit of its class or no push at all. -/

namespace Sys2Proof.Machine

/-! ### Classes, operations and words of an intensity -/

theorem classify_eq_black0_iff (v : Byte) : classify v = .black0 ↔ v = Config.black := by
  unfold classify
  split
  · next hb => exact ⟨fun _ => hb, fun _ => rfl⟩
  · next hb => split <;> simp [hb]

theorem classify_eq_white1_iff (v : Byte) : classify v = .white1 ↔ v = Config.white := by
  unfold classify
  split
  · next hb => simp [hb, Config.black, Config.white]
  · split
    · next hw => exact ⟨fun _ => hw, fun _ => rfl⟩
    · next hw => simp [hw]

theorem classify_eq_other_iff (v : Byte) : classify v = .other ↔ v ≠ Config.black ∧ v ≠ Config.white := by
  rw [ne_eq, ne_eq, ← classify_eq_black0_iff, ← classify_eq_white1_iff]
  cases classify v <;> simp

theorem eq_black_iff (v : Byte) : v = Config.black ↔ v.toNat = 0 := BitVec.toNat_inj.symm

theorem eq_white_iff (v : Byte) : v = Config.white ↔ v.toNat = 255 := BitVec.toNat_inj.symm

theorem classify_eq_other_iff_toNat (v : Byte) : classify v = .other ↔ 1 ≤ v.toNat ∧ v.toNat ≤ 254 := by
  rw [classify_eq_other_iff, ne_eq, ne_eq, eq_black_iff, eq_white_iff]
  have hlt := v.isLt
  omega

/-- Settles O8: the two equality tests, read on the value of the field. -/
theorem classifyIsEqualityWithTheTwoConstants : Obligations.ClassifyIsEqualityWithTheTwoConstants := fun v =>
  ⟨(classify_eq_black0_iff v).trans (eq_black_iff v), (classify_eq_white1_iff v).trans (eq_white_iff v),
    classify_eq_other_iff_toNat v, rfl, rfl, rfl⟩

theorem ofPix_of_other {v : Byte} (h : classify v = .other) : Instr.ofPix v = .skip v := by
  rw [Instr.ofPix, h]

/-- The canonical word of a pixel operation is its intensity with both control bits clear (R50). -/
theorem encode_ofPix (v : Byte) : encode (Instr.ofPix v) = v.zeroExtend 10 := by
  cases h : classify v with
  | black0 => rw [(classify_eq_black0_iff v).1 h]; rfl
  | white1 => rw [(classify_eq_white1_iff v).1 h]; rfl
  | other => rw [ofPix_of_other h]; rfl

/-- The three ways of the priority decoder (R50). -/
theorem decode_cases (w : OpWord) :
    decode w = .start ∨ decode w = .endInput ∨
    (w.getLsbD 9 = false ∧ w.getLsbD 8 = false ∧ decode w = Instr.ofPix (OpWord.pix w)) := by
  cases h9 : w.getLsbD 9 with
  | true => exact .inl (by rw [decode, if_pos h9])
  | false =>
    cases h8 : w.getLsbD 8 with
    | true => exact .inr (.inl (decode_eq_endInput h9 h8))
    | false => exact .inr (.inr ⟨rfl, rfl, by rw [decode, h9, h8]; rfl⟩)

theorem zeroExtend_pix {w : OpWord} (h9 : w.getLsbD 9 = false) (h8 : w.getLsbD 8 = false) :
    (OpWord.pix w).zeroExtend 10 = w := by
  refine BitVec.eq_of_getLsbD_eq fun i hi => ?_
  obtain hlt | rfl | rfl : i < 8 ∨ i = 8 ∨ i = 9 := by omega
  · simp [OpWord.pix, hi, hlt]
  · rw [h8]; simp [OpWord.pix]
  · rw [h9]; simp [OpWord.pix]

theorem decode_zeroExtend (v : Byte) : decode (v.zeroExtend 10) = Instr.ofPix v := by
  have hpix : OpWord.pix (v.zeroExtend 10) = v := by
    refine BitVec.eq_of_getLsbD_eq fun i hi => ?_
    simp [OpWord.pix, hi, Nat.lt_trans hi (by decide : 8 < 10)]
  simp [decode, hpix]

/-- The push of each bit has one word: a word that decodes to it has both control bits clear, so it is canonical. -/
theorem decode_eq_pushOf_iff (w : OpWord) (b : Bool) : decode w = pushOf b ↔ w = encode (pushOf b) := by
  constructor
  · intro h
    obtain hd | hd | ⟨h9, h8, hd⟩ := decode_cases w
    · cases b <;> cases hd.symm.trans h
    · cases b <;> cases hd.symm.trans h
    · calc w = encode (Instr.ofPix (OpWord.pix w)) := by rw [encode_ofPix, zeroExtend_pix h9 h8]
        _ = encode (pushOf b) := by rw [← hd, h]
  · rintro rfl
    cases b <;> rfl

/-! ### One push: below seven held bits, and at seven -/

theorem shiftIn_getLsbD_zero (sr : Byte) (b : Bool) : (shiftIn sr b).getLsbD 0 = b := by
  rw [shiftIn, BitVec.getLsbD_append]
  cases b <;> rfl

/-- R100 in all the fields that an observer or a later push reads. -/
theorem push_below_seven (b : Bool) {s : State} (h : s.cnt.toNat < 7) :
    (push b s).sr = shiftIn s.sr b ∧ (push b s).cnt.toNat = s.cnt.toNat + 1 ∧
      (push b s).outValid = false ∧ (push b s).emission = none ∧ (push b s).out = s.out := by
  have hne : s.cnt ≠ 7 := by rintro e; simp [e] at h
  rw [push_of_ne b s hne]
  exact ⟨rfl, toNat_succ_of_ne_seven hne, rfl, rfl, rfl⟩

/-- R101 in the same fields; the new bit is bit 0 of the byte. -/
theorem push_at_seven (b : Bool) {s : State} (h : s.cnt.toNat = 7) :
    (push b s).sr = 0 ∧ (push b s).cnt = 0 ∧ (push b s).outValid = true ∧ (push b s).outByte = shiftIn s.sr b ∧
      (push b s).outByte.getLsbD 0 = b ∧ (push b s).outTok = hexToken (push b s).outByte ∧
      (push b s).emission = some (push b s).outByte ∧ (push b s).out = s.out ++ [(push b s).outByte] := by
  rw [push_of_eq b s (BitVec.eq_of_toNat_eq h)]
  exact ⟨rfl, rfl, rfl, rfl, shiftIn_getLsbD_zero s.sr b, rfl, rfl, rfl⟩

/-! ### Eight pushes -/

theorem accBits_eight_injective {x y : Byte} (h : accBits x 8 = accBits y 8) : x = y :=
  BitVec.eq_of_toNat_eq ((toNat_eq_bitsValue_of_accBits h).trans (toNat_eq_bitsValue_of_accBits rfl).symm)

/-- Pushing the bits of a byte from the start state, the most significant first, emits that byte with its token. -/
theorem runOps_pushes_of_byte (x : Byte) {s : State} (hs : s.atStart) :
    ∃ t, runOps ((accBits x 8).map pushOf) s = .next t ∧ t.out = s.out ++ [x] ∧ t.outTok = hexToken x := by
  have hsplit : accBits x 8 = (accBits x 8).dropLast ++ [x.getLsbD 0] := rfl
  have hlen : (accBits x 8).dropLast.length = 7 := rfl
  obtain ⟨u, hu, hout, hacc, hcnt⟩ := runOps_pushes_of_short (hlen.trans_lt (by decide)) hs
  have hcnt7 : u.cnt = 7 := BitVec.eq_of_toNat_eq (hcnt.trans hlen)
  have hbyte : shiftIn u.sr (x.getLsbD 0) = x := by
    refine accBits_eight_injective ?_
    rw [← acc_append_of_cnt_eq_seven _ hcnt7, hacc, ← hsplit]
  refine ⟨push (x.getLsbD 0) u, ?_, ?_⟩
  · rw [hsplit, List.map_append, runOps_append_of_next hu, List.map_singleton, runOps, exec_pushOf]
    rfl
  · rw [push_of_eq _ u hcnt7, hbyte, ← hout]
    exact ⟨rfl, rfl⟩

/-! ### The three pixel operations -/

/-- Settles O12: PUSH0 is the push of bit 0, and eight zeros are the bits of the byte 0x00. -/
theorem push0ShiftsInAZeroOrCompletesTheByte : Obligations.Push0ShiftsInAZeroOrCompletesTheByte := by
  refine ⟨fun w => decode_eq_pushOf_iff w false, rfl, fun s => ?_, fun s hs => runOps_pushes_of_byte 0x00 hs, ?_⟩
  · exact ⟨_, exec_push0 s, push_below_seven false, push_at_seven false⟩
  · rintro s ⟨hsr, hcnt⟩
    refine ⟨_, exec_push0 s, ?_, ?_⟩
    · rw [push_sr, hsr, hcnt]; rfl
    · rw [push_cnt, hcnt]; rfl

/-- Settles O13: PUSH1 is the push of bit 1; eight ones are the bits of 0xFF, seven zeros and a one those of 0x01. -/
theorem push1ShiftsInAOneOrCompletesTheByte : Obligations.Push1ShiftsInAOneOrCompletesTheByte := by
  refine ⟨fun w => decode_eq_pushOf_iff w true, rfl, fun s => ?_, fun s hs => runOps_pushes_of_byte 0xFF hs,
    fun s hs => runOps_pushes_of_byte 0x01 hs⟩
  exact ⟨_, exec_push1 s, push_below_seven true, push_at_seven true⟩

/-- Settles O14: SKIP leaves all that a later push depends on, so that push does the same as without it. -/
theorem skipChangesNeitherRegisterNorOutput : Obligations.SkipChangesNeitherRegisterNorOutput := by
  refine ⟨fun v h1 h254 => ⟨?_, rfl⟩, fun v s _ _ => ⟨_, exec_skip v s, rfl, rfl, rfl, rfl, rfl, fun b => ?_⟩⟩
  · rw [decode_zeroExtend, ofPix_of_other ((classify_eq_other_iff_toNat v).2 ⟨h1, h254⟩)]
  · obtain ⟨⟨hsr, hcnt, -⟩, o, ⟨-, hout, -⟩, -, hout', -⟩ :=
      stepsAlike_push b (s1 := outNone s) (s2 := s) ⟨rfl, rfl, rfl⟩
    exact ⟨hsr, hcnt, hout.trans hout'.symm⟩

/-! ### What counts (R86) -/

theorem cnt_of_exec_of_ne_push {i : Instr} {s t : State} (h : exec i s = .next t) (hi : ∀ b, i ≠ pushOf b) :
    t.cnt = 0 ∨ t.cnt = s.cnt := by
  obtain rfl | rfl | ⟨b, rfl⟩ | ⟨v, rfl⟩ := instr_cases i
  · cases h; exact .inl rfl
  · cases h; exact .inl rfl
  · exact absurd rfl (hi b)
  · cases h; exact .inr rfl

theorem eq_push0_or_push1_iff (i : Instr) : (i = .push0 ∨ i = .push1) ↔ ∃ b, i = pushOf b := by
  simp [pushOf]

/-- A pixel is classified exactly when its operation is a push. -/
theorem isSome_bitOfClass_eq_isPush (v : Int) :
    (bitOfClass (classifyInt v)).isSome = (Instr.ofIntensity v == .push0 || Instr.ofIntensity v == .push1) := by
  obtain ⟨b, hb, hi⟩ | ⟨hb, u, hi⟩ := ofIntensity_cases v <;> rw [hb, hi]
  · cases b <;> rfl
  · rfl

theorem length_classifiedBits_eq_countP (vs : List Int) :
    (classifiedBits vs).length =
      (vs.map Instr.ofIntensity).countP (fun i => i == .push0 || i == .push1) := by
  rw [classifiedBits, List.length_filterMap_eq_countP, List.countP_map]
  exact congrArg (List.countP · vs) (funext isSome_bitOfClass_eq_isPush)

/-- Settles O41: every operation but a push clears `CNT` or leaves it, and `Nc` counts the pushes pixel by pixel. -/
theorem onlyPushesCount : Obligations.OnlyPushesCount := by
  refine ⟨fun i s t h hinc => ?_, fun s hlt b => ?_, fun vs => ⟨length_classifiedBits_eq_countP vs, ?_⟩⟩
  · by_contra hne
    rw [eq_push0_or_push1_iff, not_exists] at hne
    obtain h0 | hsame := cnt_of_exec_of_ne_push h hne
    · simp [h0] at hinc
    · simp [hsame] at hinc
  · obtain ⟨-, hcnt, -⟩ := push_below_seven b hlt
    exact ⟨_, exec_pushOf b s, hcnt⟩
  · rw [length_encodeTokens, length_classifiedBits_eq_countP]

end Sys2Proof.Machine

/-! ## A push, in `SR` and in `ACC` (R100, R101) -/

namespace Sys2Proof.Machine

/-- Settles O15: below seven held bits the push is the shift-in, and `ACC` is its list of bits. -/
theorem pushBelowSevenAppendsToTheAccumulator : Obligations.PushBelowSevenAppendsToTheAccumulator := by
  intro s b hlt
  obtain ⟨hsr, hcnt, -, hem, hout⟩ := push_below_seven b hlt
  have hne : s.cnt ≠ 7 := fun h => absurd hlt (by rw [h]; decide)
  exact ⟨hsr, by rw [hsr, shiftIn_toNat], hcnt, hout, hem, by rw [acc_push, if_neg hne]⟩

/-- A byte is its upper seven bits with its lowest bit shifted in. -/
theorem shiftIn_ushiftRight_one (v : Byte) : shiftIn (v >>> 1) (v.getLsbD 0) = v := by
  have hbit : (v.getLsbD 0).toNat = v.toNat % 2 := by
    rw [← BitVec.testBit_toNat, Nat.toNat_testBit, Nat.pow_zero, Nat.div_one]
  refine BitVec.eq_of_toNat_eq ?_
  rw [shiftIn_toNat, hbit, BitVec.toNat_ushiftRight, Nat.shiftRight_eq_div_pow]
  have hlt := v.isLt
  omega

/-- The state at rest from which one more bit completes the byte `v`. -/
def State.beforeByte (v : Byte) : State := { State.reset with sr := v >>> 1, cnt := 7 }

theorem accumulatorOk_beforeByte (v : Byte) : (State.beforeByte v).accumulatorOk := by
  change (v >>> 1).toNat < 2 ^ 7
  have hlt := v.isLt
  rw [BitVec.toNat_ushiftRight, Nat.shiftRight_eq_div_pow]
  omega

/-- Settles O16: the byte has the bits of `ACC ++ [b]`; every `v` is reached from `State.beforeByte v`. -/
theorem pushAtSevenEmitsAllEightBits : Obligations.PushAtSevenEmitsAllEightBits := by
  refine ⟨fun s b h => ?_, fun v => ⟨State.beforeByte v, v.getLsbD 0, accumulatorOk_beforeByte v, rfl, ?_⟩⟩
  · obtain ⟨hsr, hcnt, -, hbyte, -, htok, hem, hout⟩ := push_at_seven b h
    obtain ⟨-, -, -, hbits⟩ := push_of_cnt_eq_seven b (BitVec.eq_of_toNat_eq h)
    exact ⟨hem.trans (congrArg some hbyte), toNat_eq_bitsValue_of_accBits hbits, htok, hout, hsr, hcnt,
      acc_of_cnt_eq_zero hcnt⟩
  · obtain ⟨-, -, -, hbyte, -, -, hem, -⟩ := push_at_seven (v.getLsbD 0) (s := State.beforeByte v) rfl
    rw [hem, hbyte]
    exact congrArg some (shiftIn_ushiftRight_one v)

end Sys2Proof.Machine

/-! ## The two other register designs (R102, R108)

At rest each design's registers are a function of the machine's. Each operation carries that function along and emits
what the machine emits, and so the bytes of any list of operations are the same. -/

namespace Sys2Proof.Machine

/-- Design `f` follows the machine when its registers are always `view` of the machine's state. -/
def Mirrors {α : Type} (f : Instr → α → DesignStep α) (view : State → α) : Prop :=
  ∀ {i : Instr} {s t : State}, exec i s = .next t → f i (view s) = (view t, t.emission)

/-- Every operation completes, and `OUT` grows by its emission (R32, R130). -/
theorem exec_next_emits (i : Instr) (s : State) : ∃ t, exec i s = .next t ∧ t.out = s.out ++ t.emission.toList := by
  obtain ⟨t, -, ht, -, -, o, ⟨hem, hout, -⟩, -⟩ := exec_stepsAlike i (s1 := s) (s2 := s) ⟨rfl, rfl, rfl⟩
  exact ⟨t, ht, hem ▸ hout⟩

theorem Mirrors.runOps_out {α : Type} {f : Instr → α → DesignStep α} {view : State → α} (hf : Mirrors f view)
    (is : List Instr) (s : State) :
    ∃ t, runOps is s = .next t ∧ t.out = s.out ++ designEmits f is (view s) := by
  induction is generalizing s with
  | nil => exact ⟨s, rfl, (List.append_nil _).symm⟩
  | cons i is ih =>
    obtain ⟨u, hu, hone⟩ := exec_next_emits i s
    obtain ⟨t, ht, hrest⟩ := ih u
    refine ⟨t, by rw [runOps, hu]; exact ht, ?_⟩
    rw [hrest, hone, designEmits, hf hu, List.append_assoc]

theorem Mirrors.emittedBetween_runOps {α : Type} {f : Instr → α → DesignStep α} {view : State → α}
    (hf : Mirrors f view) (is : List Instr) (s : State) :
    ∃ t, runOps is s = .next t ∧ emittedBetween s t = designEmits f is (view s) := by
  obtain ⟨t, ht, hout⟩ := hf.runOps_out is s
  exact ⟨t, ht, by rw [emittedBetween, hout, List.drop_left]⟩

theorem emission_push (b : Bool) (s : State) :
    (push b s).emission = if s.cnt = 7 then some (shiftIn s.sr b) else none := by
  obtain ⟨hem, -, -⟩ := emits_push b s
  exact hem

/-! ### The counter that reaches 8 (R102, D7) -/

/-- What the two-step design holds at rest (`TwoPhaseRegs.tracks_iff`). -/
def State.twoPhaseRegs (s : State) : TwoPhaseRegs := ⟨s.sr, s.cnt.zeroExtend 4⟩

theorem TwoPhaseRegs.tracks_iff {r : TwoPhaseRegs} {s : State} : r.tracks s ↔ r = s.twoPhaseRegs := by
  rw [TwoPhaseRegs.tracks, State.twoPhaseRegs, ← TwoPhaseRegs.mk.injEq]

theorem twoPhaseRegs_of_atStart {s : State} (h : s.atStart) : s.twoPhaseRegs = ⟨0, 0⟩ := by
  obtain ⟨hsr, hcnt⟩ := h
  rw [State.twoPhaseRegs, hsr, hcnt]
  rfl

theorem zeroExtend_ne_eight (cnt : Count) : cnt.zeroExtend 4 ≠ 8 := by bv_omega

theorem zeroExtend_succ_of_ne_seven {cnt : Count} (h : cnt ≠ 7) :
    cnt.zeroExtend 4 + 1 = (cnt + 1).zeroExtend 4 := by bv_omega

/-- At rest the counter is not 8, and the second phase does nothing. -/
theorem twoPhaseEmit_twoPhaseRegs (s : State) : twoPhaseEmit s.twoPhaseRegs = (s.twoPhaseRegs, none) :=
  if_neg (zeroExtend_ne_eight s.cnt)

theorem twoPhaseAccept_pushOf (b : Bool) (r : TwoPhaseRegs) :
    twoPhaseAccept (pushOf b) r = ⟨shiftIn r.sr b, r.cnt + 1⟩ := by
  cases b <;> rfl

/-- Below seven the first phase is the machine's push; at seven the machine's one step is both phases. -/
theorem twoPhaseStep_pushOf (b : Bool) (s : State) :
    twoPhaseStep (pushOf b) s.twoPhaseRegs = ((push b s).twoPhaseRegs, (push b s).emission) := by
  rw [twoPhaseStep, twoPhaseAccept_pushOf, emission_push]
  by_cases hc : s.cnt = 7
  · obtain ⟨hclear, -⟩ := push_of_cnt_eq_seven b hc
    rw [twoPhaseRegs_of_atStart hclear, if_pos hc, State.twoPhaseRegs, hc]
    rfl
  · have hshift : ⟨shiftIn s.sr b, s.cnt.zeroExtend 4 + 1⟩ = (push b s).twoPhaseRegs := by
      rw [State.twoPhaseRegs, push_sr, push_cnt, if_neg hc, zeroExtend_succ_of_ne_seven hc]
    rw [if_neg hc]
    exact hshift ▸ twoPhaseEmit_twoPhaseRegs (push b s)

theorem twoPhaseStep_mirrors : Mirrors twoPhaseStep State.twoPhaseRegs := by
  intro i s t h
  obtain rfl | rfl | ⟨b, rfl⟩ | ⟨v, rfl⟩ := instr_cases i
  · cases h; rfl
  · cases h; rfl
  · rw [exec_pushOf] at h; cases h; exact twoPhaseStep_pushOf b s
  · cases h; exact twoPhaseEmit_twoPhaseRegs s

/-- Settles O53: the tracking registers are `State.twoPhaseRegs`, which the design mirrors. -/
theorem twoStepDesignKeepsItsRegistersEqual : Obligations.TwoStepDesignKeepsItsRegistersEqual := by
  intro i s t r hr h
  rw [TwoPhaseRegs.tracks_iff.1 hr, twoPhaseStep_mirrors h]
  exact ⟨TwoPhaseRegs.tracks_iff.2 rfl, rfl⟩

/-- Settles O46: both begin cleared, and the mirroring goes over to whole lists. -/
theorem twoStepDesignEmitsTheSameBytes : Obligations.TwoStepDesignEmitsTheSameBytes := by
  intro is s hs
  rw [← twoPhaseRegs_of_atStart hs]
  exact twoPhaseStep_mirrors.emittedBetween_runOps is s

/-! ### The left-aligned register (R108, D8) -/

/-- What the left-aligned design holds (`LeftRegs.tracks_iff`). -/
def State.leftRegs (s : State) : LeftRegs := ⟨s.sr <<< (8 - s.cnt.toNat), s.cnt⟩

theorem LeftRegs.tracks_iff {r : LeftRegs} {s : State} : r.tracks s ↔ r = s.leftRegs := by
  rw [LeftRegs.tracks, State.leftRegs, and_comm, ← LeftRegs.mk.injEq]

@[simp] theorem leftRegs_cnt (s : State) : s.leftRegs.cnt = s.cnt := rfl

theorem leftRegs_of_atStart {s : State} (h : s.atStart) : s.leftRegs = ⟨0, 0⟩ := by
  obtain ⟨hsr, hcnt⟩ := h
  rw [State.leftRegs, hsr, hcnt]
  rfl

theorem leftStep_pushOf_eq (b : Bool) (r : LeftRegs) : leftStep (pushOf b) r = leftPush r b := by
  cases b <;> rfl

theorem shiftIn_eq_or (sr : Byte) (b : Bool) : shiftIn sr b = sr <<< 1 ||| (if b then 1 else 0) := by
  refine BitVec.eq_of_getLsbD_eq fun i hi => ?_
  cases i with
  | zero => rw [shiftIn_getLsbD_zero]; cases b <;> simp
  | succ i =>
    have hi7 : i < 7 := Nat.lt_of_succ_lt_succ hi
    rw [shiftIn, BitVec.getLsbD_append]
    cases b <;> simp [hi7, hi, BitVec.getLsbD_eq_getElem (Nat.lt_succ_of_lt hi7)]

/-- The place `7 - CNT` that the left-aligned design writes, seen from either end of the byte. -/
theorem ushiftRight_eq_shiftLeft (cnt : Count) : 0x80#8 >>> cnt.toNat = 1#8 <<< (7 - cnt.toNat) := by
  revert cnt; decide

/-- Writing a bit below those held is shifting it in and then aligning one place less far. -/
theorem leftWrite_leftRegs (s : State) (b : Bool) :
    leftWrite s.leftRegs b = shiftIn s.sr b <<< (7 - s.cnt.toNat) := by
  have hplace : 8 - s.cnt.toNat = 1 + (7 - s.cnt.toNat) := by have := s.cnt.isLt; omega
  rw [shiftIn_eq_or, BitVec.shiftLeft_or_distrib, ← BitVec.shiftLeft_add, ← hplace, leftWrite, State.leftRegs,
    ushiftRight_eq_shiftLeft]
  cases b <;> simp

/-- With seven bits held the alignment is by no place, so the byte written is the machine's. -/
theorem leftPush_leftRegs (b : Bool) (s : State) :
    leftPush s.leftRegs b = ((push b s).leftRegs, (push b s).emission) := by
  rw [leftPush, leftWrite_leftRegs, leftRegs_cnt, emission_push]
  by_cases hc : s.cnt = 7
  · obtain ⟨hclear, -⟩ := push_of_cnt_eq_seven b hc
    rw [leftRegs_of_atStart hclear, if_pos hc, if_pos hc, hc]
    simp
  · rw [if_neg hc, if_neg hc, State.leftRegs, push_sr, push_cnt, if_neg hc,
      toNat_succ_of_ne_seven hc, Nat.succ_sub_succ]

theorem leftStep_mirrors : Mirrors leftStep State.leftRegs := by
  intro i s t h
  obtain rfl | rfl | ⟨b, rfl⟩ | ⟨v, rfl⟩ := instr_cases i
  · cases h; rfl
  · cases h; rfl
  · rw [exec_pushOf] at h; cases h
    rw [leftStep_pushOf_eq]; exact leftPush_leftRegs b s
  · cases h; rfl

theorem exec_keeps_accumulatorOk {i : Instr} {s t : State} (hs : s.accumulatorOk) (h : exec i s = .next t) :
    t.accumulatorOk := by
  obtain rfl | rfl | ⟨b, rfl⟩ | ⟨v, rfl⟩ := instr_cases i
  · cases h; exact accumulatorOk_of_atStart (atStart_outNone_beginRun s)
  · cases h; exact accumulatorOk_of_atStart (atStart_outNone_beginRun (closeRun s))
  · rw [exec_pushOf] at h; cases h; exact accumulatorOk_push b hs
  · cases h; exact hs

/-- Settles O54: the tracking registers are `State.leftRegs`, which the design mirrors; only the first of the three
relations needs R13. -/
theorem leftAlignedDesignKeepsItsRegisterAligned : Obligations.LeftAlignedDesignKeepsItsRegisterAligned := by
  intro i s t r hok hr h
  rw [LeftRegs.tracks_iff.1 hr, leftStep_mirrors h]
  exact ⟨exec_keeps_accumulatorOk hok h, LeftRegs.tracks_iff.2 rfl, rfl⟩

/-- Settles O47: both begin cleared, and the mirroring goes over to whole lists. -/
theorem leftAlignedDesignEmitsTheSameBytes : Obligations.LeftAlignedDesignEmitsTheSameBytes := by
  intro is s hs
  rw [← leftRegs_of_atStart hs]
  exact leftStep_mirrors.emittedBetween_runOps is s

end Sys2Proof.Machine

/-! ## The token stream (R32, R114) -/

namespace Sys2Proof.Machine

theorem emission_of_not_outValid {s : State} (h : s.outValid = false) : s.emission = none := by
  rw [State.emission, h]; rfl

theorem Emits.tokens {s t : State} {o : Option Byte} (h : Emits s t o) :
    t.tokens = s.tokens ++ o.toList.map hexToken := by
  obtain ⟨-, hout, -⟩ := h
  rw [State.tokens, hout, List.map_append, State.tokens]

/-- What `step_stepsAlike` says of two agreeing states, read of one state: every step emits one byte or none. -/
theorem step_emits {s t : State} (h : step s = .next t) : Emits s t t.emission := by
  obtain ⟨u, -, hu, -, -, o, ⟨rfl, hout, htok⟩, -⟩ := step_stepsAlike (s1 := s) (s2 := s) ⟨rfl, rfl, rfl⟩
  obtain rfl : u = t := Host.Outcome.next.inj (hu.symm.trans h)
  exact ⟨rfl, hout, htok⟩

/-- Settles O40: a step's emission is the byte on the port or none, and the token stream grows by its token; over a run
the tokens are those of the bytes of the whole groups. -/
theorem oneTokenPerByteInOrder : Obligations.OneTokenPerByteInOrder := by
  refine ⟨fun s t h => ?_, fun vs => ⟨rfl, length_encodeTokens vs⟩⟩
  have hem := step_emits h
  refine ⟨fun hv => ?_, fun hv => ?_⟩
  · obtain ⟨htok, -⟩ := hem.portOk hv
    exact ⟨by rw [hem.tokens, emission_of_outValid hv, htok]; rfl, htok⟩
  · rw [hem.tokens, emission_of_not_outValid hv]
    exact List.append_nil _

end Sys2Proof.Machine

/-! ## Totality of the operations, the step and the run (R130) -/

namespace Sys2Proof.Machine

theorem exec_total (i : Instr) (s : State) : ∃ t, exec i s = .next t := by
  obtain ⟨t, ht, -⟩ := exec_next_emits i s
  exact ⟨t, ht⟩

/-- Idling and the reset answer by themselves; a presented operation answers because every operation does. -/
theorem step_total (s : State) : ∃ t, step s = .next t := by
  obtain ⟨-, e⟩ | ⟨-, e⟩ | ⟨w, -, e⟩ := step_inversion s
  · exact ⟨_, e⟩
  · exact ⟨_, e⟩
  · rw [e]; exact exec_total (decode w) _

theorem run_succ_of_step {M : Host.Core} {s u : M.State} (h : M.step s = .next u) (k : Nat) :
    M.run (k + 1) s = M.run k u := by
  rw [Host.Core.run, h]

/-- The induction goes over the number of steps, for every state at once: the first step moves the state. -/
theorem safeFor_all (k : Nat) (s : State) : safeFor k s := by
  induction k generalizing s with
  | zero => exact ⟨s, rfl⟩
  | succ k ih =>
    obtain ⟨u, hu⟩ := step_total s
    obtain ⟨t, ht⟩ := ih u
    exact ⟨t, (run_succ_of_step (M := Sys2Proof.core) hu k).trans ht⟩

/-- Settles O25: totality of the operations gives that of the step, and that of the step any number of steps. -/
theorem noStepFaultsOrStops : Obligations.NoStepFaultsOrStops :=
  ⟨exec_total, step_total, safeFor_all⟩

end Sys2Proof.Machine

/-! ## The decoder and the encoder (R50 to R65)

`decode` reads the two control bits and then the pixel field; `encode` writes the canonical word. Each is described
once here; the round trips, the table and the pseudo-operations are read off these descriptions. -/

namespace Sys2Proof.Machine

theorem decode_eq_start {w : OpWord} (h9 : w.getLsbD 9 = true) : decode w = .start := by
  rw [decode, if_pos h9]

theorem decode_eq_ofPix {w : OpWord} (h9 : w.getLsbD 9 = false) (h8 : w.getLsbD 8 = false) :
    decode w = Instr.ofPix (OpWord.pix w) := by
  rw [decode, h9, h8]; rfl

theorem ofPix_of_ne {v : Byte} (hb : v ≠ 0x00) (hw : v ≠ 0xFF) : Instr.ofPix v = .skip v :=
  ofPix_of_other ((classify_eq_other_iff v).2 ⟨hb, hw⟩)

/-- Settles O1: each clause is one way of the priority decoder. -/
theorem decodeReadsTheControlBitsByPriority : Obligations.DecodeReadsTheControlBitsByPriority := by
  refine fun w => ⟨decode_eq_start, decode_eq_endInput, fun h9 h8 => ?_⟩
  rw [decode_eq_ofPix h9 h8]
  exact ⟨fun h => by rw [h]; rfl, fun h => by rw [h]; rfl, ofPix_of_ne⟩

/-- Settles O2: each word is evaluated. -/
theorem writtenOutWordsDecodeToTheirOperations : Obligations.WrittenOutWordsDecodeToTheirOperations := by
  unfold Obligations.WrittenOutWordsDecodeToTheirOperations
  decide

/-! ### Round trips -/

theorem wf_skip_iff (v : Byte) : (Instr.skip v).wf = true ↔ classify v = .other := by
  rw [classify_eq_other_iff, Instr.wf, Bool.and_eq_true, bne_iff_ne, bne_iff_ne]

theorem ofPix_ne_control (v : Byte) : Instr.ofPix v ≠ .start ∧ Instr.ofPix v ≠ .endInput := by
  rw [Instr.ofPix]
  cases classify v <;> exact ⟨nofun, nofun⟩

theorem decode_encode {i : Instr} (h : i.wf = true) : decode (encode i) = i := by
  cases i with
  | start => rfl
  | endInput => rfl
  | push0 => rfl
  | push1 => rfl
  | skip v => exact (decode_zeroExtend v).trans (ofPix_of_other ((wf_skip_iff v).1 h))

theorem wf_ofPix (v : Byte) : (Instr.ofPix v).wf = true := by
  cases h : classify v with
  | black0 => rw [Instr.ofPix, h]; rfl
  | white1 => rw [Instr.ofPix, h]; rfl
  | other => rw [ofPix_of_other h, wf_skip_iff, h]

theorem wf_decode (w : OpWord) : (decode w).wf = true := by
  obtain h | h | ⟨-, -, h⟩ := decode_cases w <;> rw [h]
  · rfl
  · rfl
  · exact wf_ofPix _

/-- Settles O3: `SKIP` is the one operation with an operand, and its well-formedness is what makes the pixel word of
the operand decode to it and not to a push. -/
theorem encodeThenDecodeGivesTheOperationBack : Obligations.EncodeThenDecodeGivesTheOperationBack :=
  ⟨fun _ => decode_encode, wf_decode⟩

/-- Settles O4: a pixel word is its own field with two zero bits before it; the second clause is the round trip of O3
from the decoded operation. -/
theorem pixelWordsAreCanonical : Obligations.PixelWordsAreCanonical := by
  refine fun w => ⟨fun h9 h8 => ?_, decode_encode (wf_decode w)⟩
  rw [decode_eq_ofPix h9 h8, encode_ofPix, zeroExtend_pix h9 h8]

/-- Settles O5: the statement is a count over 1024 words, and the kernel counts them. -/
theorem eachOperationHasItsCountOfWords : Obligations.EachOperationHasItsCountOfWords := by
  unfold Obligations.EachOperationHasItsCountOfWords
  decide +kernel

/-! ### Intensities of a wider type (R61, D12) -/

theorem classifyInt_eq_black0_iff (v : Int) : classifyInt v = .black0 ↔ v = 0 := by
  rw [classifyInt]
  split
  · next h => exact ⟨fun _ => h, fun _ => rfl⟩
  · next h => split <;> simp [h]

theorem classifyInt_eq_white1_iff (v : Int) : classifyInt v = .white1 ↔ v = 255 := by
  rw [classifyInt]
  split
  · next h => simp [h]
  · split
    · next h => exact ⟨fun _ => h, fun _ => rfl⟩
    · next h => simp [h]

theorem classifyInt_of_ne {v : Int} (h0 : v ≠ 0) (h255 : v ≠ 255) : classifyInt v = .other := by
  rw [classifyInt, if_neg h0, if_neg h255]

theorem ofIntensity_of_other {v : Int} (h : classifyInt v = .other) :
    Instr.ofIntensity v = if 0 < v ∧ v < 255 then .skip (BitVec.ofInt 8 v) else .skip 128 := by
  rw [Instr.ofIntensity, h]

/-- Between the two constants nothing is lost in the eight bits of the port. -/
theorem toNat_ofInt_of_lt {v : Int} (h0 : 0 ≤ v) (h255 : v < 256) : (BitVec.ofInt 8 v).toNat = v.toNat := by
  rw [BitVec.toNat_ofInt]
  omega

theorem ofIntensity_wf {v : Int} (h0 : v ≠ 0) (h255 : v ≠ 255) :
    ∃ u : Byte, Instr.ofIntensity v = .skip u ∧ (Instr.skip u).wf = true := by
  rw [ofIntensity_of_other (classifyInt_of_ne h0 h255)]
  split
  · next h =>
    refine ⟨_, rfl, (wf_skip_iff _).2 ((classify_eq_other_iff_toNat _).2 ?_)⟩
    rw [toNat_ofInt_of_lt (by omega) (by omega)]
    omega
  · exact ⟨128, rfl, by decide⟩

theorem classifyInt_toNat (v : Byte) : classifyInt v.toNat = classify v := by
  cases h : classify v with
  | black0 => rw [(classify_eq_black0_iff v).1 h]; rfl
  | white1 => rw [(classify_eq_white1_iff v).1 h]; rfl
  | other =>
    obtain ⟨h1, h254⟩ := (classify_eq_other_iff_toNat v).1 h
    exact classifyInt_of_ne (by omega) (by omega)

/-- What the port carries, the wide classification does not change. -/
theorem ofIntensity_toNat (v : Byte) : Instr.ofIntensity v.toNat = Instr.ofPix v := by
  have hc := classifyInt_toNat v
  cases h : classify v with
  | black0 => rw [Instr.ofIntensity, Instr.ofPix, hc, h]
  | white1 => rw [Instr.ofIntensity, Instr.ofPix, hc, h]
  | other =>
    obtain ⟨h1, h254⟩ := (classify_eq_other_iff_toNat v).1 h
    rw [ofPix_of_other h, ofIntensity_of_other (hc.trans h), if_pos (by omega), BitVec.ofInt_natCast,
      BitVec.ofNat_toNat, BitVec.setWidth_eq]

theorem map_ofIntensity_toNat (vs : List Byte) :
    (vs.map fun v => (v.toNat : Int)).map Instr.ofIntensity = vs.map Instr.ofPix := by
  rw [List.map_map]
  exact List.map_congr_left fun v _ => ofIntensity_toNat v

/-- Settles O9: two equality tests on the integer itself; where the operand of the `SKIP` is cut to eight bits it lies
between the two constants already. -/
theorem wideIntensitiesAreSkippedWithoutReduction : Obligations.WideIntensitiesAreSkippedWithoutReduction := by
  refine ⟨fun v => ⟨classifyInt_eq_black0_iff v, classifyInt_eq_white1_iff v, ofIntensity_wf⟩,
    fun v => ⟨classifyInt_toNat v, ?_⟩⟩
  rw [ofIntensity_toNat, decode_zeroExtend]

/-- Settles O7: the pixel word of `v` decodes to `PIX v`, and a run over integers within 0 to 255 is made of these. -/
theorem pseudoOperationsExpandToThePixelWords : Obligations.PseudoOperationsExpandToThePixelWords := by
  refine ⟨fun v => ?_, rfl, rfl, rfl, fun vs => ?_⟩
  · rw [Pseudo.expand, decode_zeroExtend]
  · rw [Pseudo.expand, runOperations, map_ofIntensity_toNat]

/-! ### The rows of the opcode table (R59)

Each row's mask and match tests the control bits, or the whole word, and so says which operation is decoded. -/

/-- The two control bits tell the control operations apart, for no pixel operation is one of them. -/
theorem decode_beq_control (w : OpWord) :
    (decode w == .start) = w.getLsbD 9 ∧ (decode w == .endInput) = (!w.getLsbD 9 && w.getLsbD 8) := by
  cases h9 : w.getLsbD 9 with
  | true => rw [decode_eq_start h9]; exact ⟨rfl, rfl⟩
  | false =>
    cases h8 : w.getLsbD 8 with
    | true => rw [decode_eq_endInput h9 h8]; exact ⟨rfl, rfl⟩
    | false =>
      obtain ⟨hs, he⟩ := ofPix_ne_control (OpWord.pix w)
      rw [decode_eq_ofPix h9 h8]
      exact ⟨beq_false_of_ne hs, beq_false_of_ne he⟩

theorem startRow_matches (w : OpWord) : (w &&& 0x200 == 0x200) = (decode w == .start) := by
  have hbits : ∀ w : OpWord, (w &&& 0x200 == 0x200) = w.getLsbD 9 := by decide +kernel
  obtain ⟨hstart, -⟩ := decode_beq_control w
  rw [hbits, hstart]

theorem endRow_matches (w : OpWord) : (w &&& 0x300 == 0x100) = (decode w == .endInput) := by
  have hbits : ∀ w : OpWord, (w &&& 0x300 == 0x100) = (!w.getLsbD 9 && w.getLsbD 8) := by decide +kernel
  obtain ⟨-, hend⟩ := decode_beq_control w
  rw [hbits, hend]

theorem pushRow_matches (w : OpWord) (b : Bool) :
    (w &&& 0x3FF == encode (pushOf b)) = (decode w == pushOf b) := by
  have hmask : w &&& 0x3FF = w := BitVec.and_allOnes
  rw [hmask, Bool.eq_iff_iff, beq_iff_eq, beq_iff_eq, decode_eq_pushOf_iff]

theorem push0Row_matches (w : OpWord) : (w &&& 0x3FF == 0x000) = (decode w == .push0) := pushRow_matches w false

theorem push1Row_matches (w : OpWord) : (w &&& 0x3FF == 0x0FF) = (decode w == .push1) := pushRow_matches w true

theorem skipRow_matches (w : OpWord) :
    (w &&& 0x300 == 0x000) = (!(decode w == .start) && !(decode w == .endInput)) := by
  have hbits : ∀ w : OpWord, (w &&& 0x300 == 0x000) = (!w.getLsbD 9 && !(!w.getLsbD 9 && w.getLsbD 8)) := by
    decide +kernel
  obtain ⟨hstart, hend⟩ := decode_beq_control w
  rw [hbits, hstart, hend]

theorem contains_black_white (v : Byte) :
    [0x00, 0xFF].contains v = (Instr.ofPix v == .push0 || Instr.ofPix v == .push1) := by
  cases h : classify v with
  | black0 => rw [(classify_eq_black0_iff v).1 h]; rfl
  | white1 => rw [(classify_eq_white1_iff v).1 h]; rfl
  | other =>
    obtain ⟨hb, hw⟩ := (classify_eq_other_iff v).1 h
    have hnot : ([Config.black, Config.white] : List Byte).contains v = false := by simp [hb, hw]
    rw [ofPix_of_other h]
    exact hnot

theorem skipRow_selects (w : OpWord) :
    (w &&& 0x300 == 0x000 && !([0x00, 0xFF] : List Byte).contains (OpWord.pix w)) =
      ((decode w).mnemonic == "SKIP") := by
  rw [skipRow_matches, contains_black_white]
  obtain h | h | ⟨-, -, h⟩ := decode_cases w <;> rw [h]
  · rfl
  · rfl
  · cases hi : Instr.ofPix (OpWord.pix w) <;> rfl

/-- The mask and match of the table in priority order, the exclusion of `SKIP` left to that order (R59). -/
theorem rowOf_eq_mnemonic (w : OpWord) : rowOf w = some (decode w).mnemonic := by
  simp only [rowOf, opRows, List.find?, startRow_matches, endRow_matches, skipRow_matches, push0Row_matches,
    push1Row_matches]
  cases decode w <;> rfl

/-- With its exclusion `SKIP` too is selected by its own words only. -/
theorem length_filter_selects (w : OpWord) : (opRows.filter fun r => r.selects w).length = 1 := by
  simp only [opRows, List.filter, OpRow.selects, startRow_matches, endRow_matches, skipRow_selects, push0Row_matches,
    push1Row_matches]
  cases decode w <;> rfl

/-- Settles O6: every row's test is turned into one of the decoded operation, and then it is a case each. -/
theorem tableRowsAgreeWithTheDecoder : Obligations.TableRowsAgreeWithTheDecoder :=
  fun w => ⟨rowOf_eq_mnemonic w, length_filter_selects w⟩

end Sys2Proof.Machine

/-! ## One operation: what it does to the counter, the port, the run records and the free values

`instr_cases` splits the operations, with the two pushes as one case; `push_cases` splits the push. -/

namespace Sys2Proof.Machine

/-- Settles O10: `START` ends in the start state, whatever was pending, and the step emits nothing. -/
theorem startClearsTheAccumulatorAndEmitsNothing : Obligations.StartClearsTheAccumulatorAndEmitsNothing :=
  ⟨fun _ => decode_eq_start, rfl, fun s => ⟨_, exec_start s, rfl, rfl, rfl, rfl, rfl⟩⟩

theorem cnt_toNat_eq_seven_of_not_lt {cnt : Count} (h : ¬cnt.toNat < 7) : cnt.toNat = 7 := by
  have hlt := cnt.isLt
  omega

/-- The rows of the two pushes in the transition table (R103). -/
theorem push_transition (b : Bool) (s : State) :
    if s.cnt.toNat < 7 then (push b s).cnt.toNat = s.cnt.toNat + 1 ∧ (push b s).emission = none
    else (push b s).cnt = 0 ∧ ∃ x, (push b s).emission = some x ∧ (push b s).out = s.out ++ [x] := by
  split
  · next h =>
    obtain ⟨-, hcnt, -, hem, -⟩ := push_below_seven b h
    exact ⟨hcnt, hem⟩
  · next h =>
    obtain ⟨-, hcnt, -, -, -, -, hem, hout⟩ := push_at_seven b (cnt_toNat_eq_seven_of_not_lt h)
    exact ⟨hcnt, _, hem, hout⟩

/-- Settles O17: one row of the table per operation. -/
theorem counterMovesAsTheTransitionTableSays : Obligations.CounterMovesAsTheTransitionTableSays := by
  intro i s
  cases i with
  | start => exact ⟨_, exec_start s, rfl, rfl⟩
  | endInput => exact ⟨_, exec_endInput s, rfl, rfl⟩
  | push0 => exact ⟨_, exec_push0 s, push_transition false s⟩
  | push1 => exact ⟨_, exec_push1 s, push_transition true s⟩
  | skip v => exact ⟨_, exec_skip v s, rfl, rfl⟩

/-- Settles O18: every operation but a push ends in `outNone`, and so does a push below seven. -/
theorem onlyTheEighthPushEmits : Obligations.OnlyTheEighthPushEmits := by
  intro i s t h
  obtain rfl | rfl | ⟨b, rfl⟩ | ⟨v, rfl⟩ := instr_cases i
  · cases h; exact .inl ⟨rfl, rfl⟩
  · cases h; exact .inl ⟨rfl, rfl⟩
  · rw [exec_pushOf] at h; cases h
    obtain ⟨-, e⟩ | ⟨hc, e⟩ := push_cases b s
    · rw [e]; exact .inl ⟨rfl, rfl⟩
    · rw [e]; exact .inr ⟨b, rfl, by rw [hc]; rfl, rfl, rfl, rfl, rfl⟩
  · cases h; exact .inl ⟨rfl, rfl⟩

theorem pushOf_ne_control (b : Bool) : pushOf b ≠ .start ∧ pushOf b ≠ .endInput := by
  cases b <;> exact ⟨nofun, nofun⟩

/-- Settles O19: the records are written by `beginRun` and `closeRun` only, which the pixel operations do not call. -/
theorem onlyStartAndEndMoveTheRunRecords : Obligations.OnlyStartAndEndMoveTheRunRecords := by
  intro i s t h
  obtain rfl | rfl | ⟨b, rfl⟩ | ⟨v, rfl⟩ := instr_cases i
  · cases h; exact ⟨rfl, fun _ => ⟨rfl, rfl⟩, nofun, fun hne => absurd rfl hne⟩
  · cases h; exact ⟨rfl, nofun, fun _ => ⟨rfl, rfl⟩, fun _ hne => absurd rfl hne⟩
  · obtain ⟨hs, he⟩ := pushOf_ne_control b
    rw [exec_pushOf] at h; cases h
    exact ⟨push_input b s, fun e => absurd e hs, fun e => absurd e he, fun _ _ => ⟨push_runStart b s, push_runs b s⟩⟩
  · cases h; exact ⟨rfl, nofun, nofun, fun _ _ => ⟨rfl, rfl⟩⟩

/-! ### The data outputs while nothing is emitted (R24, D26) -/

/-- From `s` to `t` a free value is drawn for each data output exactly when nothing is emitted. -/
def DrawsFree (s t : State) : Prop :=
  (t.outValid = false → t.outByte = Config.freeOutByte s.freeCount ∧ t.outTok = Config.freeOutTok s.freeCount ∧
    t.freeCount = s.freeCount + 1) ∧
  (t.outValid = true → t.freeCount = s.freeCount)

theorem drawsFree_outNone {s u : State} (h : u.freeCount = s.freeCount) : DrawsFree s (outNone u) :=
  ⟨fun _ => by rw [← h]; exact ⟨rfl, rfl, rfl⟩, nofun⟩

theorem drawsFree_push (b : Bool) (s : State) : DrawsFree s (push b s) := by
  obtain ⟨-, e⟩ | ⟨-, e⟩ := push_cases b s <;> rw [e]
  · exact drawsFree_outNone rfl
  · exact ⟨nofun, fun _ => rfl⟩

theorem exec_drawsFree {i : Instr} {s t : State} (h : exec i s = .next t) : DrawsFree s t := by
  obtain rfl | rfl | ⟨b, rfl⟩ | ⟨v, rfl⟩ := instr_cases i
  · cases h; exact drawsFree_outNone rfl
  · cases h; exact drawsFree_outNone rfl
  · rw [exec_pushOf] at h; cases h; exact drawsFree_push b s
  · cases h; exact drawsFree_outNone rfl

theorem step_drawsFree {s t : State} (h : step s = .next t) : DrawsFree s t := by
  obtain ⟨-, rfl⟩ | ⟨-, rfl⟩ | ⟨w, -, hw⟩ := step_next_cases h
  · exact drawsFree_outNone rfl
  · exact drawsFree_outNone rfl
  · exact exec_drawsFree (s := { s with input := s.input.tail }) hw

/-- Settles O20: the free values are drawn by `outNone`, with which everything ends but the eighth push. -/
theorem dataOutputsAreFreeWhileNothingIsEmitted : Obligations.DataOutputsAreFreeWhileNothingIsEmitted :=
  ⟨fun _ _ _ => exec_drawsFree, fun _ _ => step_drawsFree⟩

end Sys2Proof.Machine

/-! ## One step: what stands on the port decides (R31, R136, R150) -/

namespace Sys2Proof.Machine

theorem presented_of_valid {p : InPort} (hr : p.hwReset = false) (hv : p.inValid = true) :
    p.presented = .operation p.word := by
  rw [InPort.presented, hr, hv]; rfl

theorem presented_of_not_valid {p : InPort} (hr : p.hwReset = false) (hv : p.inValid = false) :
    p.presented = .nothing := by
  rw [InPort.presented, hr, hv]; rfl

theorem presented_of_hwReset {p : InPort} (hr : p.hwReset = true) : p.presented = .hardwareReset := by
  rw [InPort.presented, hr]; rfl

theorem word_getLsbD_nine (p : InPort) : p.word.getLsbD 9 = p.inStart := by
  rw [InPort.word, BitVec.getLsbD_append]
  cases p.inStart <;> rfl

theorem word_getLsbD_eight (p : InPort) : p.word.getLsbD 8 = p.inEnd := by
  rw [InPort.word, BitVec.getLsbD_append, BitVec.getLsbD_append]
  cases p.inEnd <;> rfl

theorem pix_word (p : InPort) : OpWord.pix p.word = p.inPix := by
  refine BitVec.eq_of_getLsbD_eq fun i hi => ?_
  rw [OpWord.pix, InPort.word, BitVec.getLsbD_extractLsb', Nat.zero_add, BitVec.getLsbD_append,
    if_pos (Nat.lt_succ_of_lt hi), BitVec.getLsbD_append, if_pos hi, decide_eq_true hi, Bool.true_and]

/-- Settles O21: the three line clauses are the three ways of the decoder on the word of the lines. -/
theorem stepRunsThePresentedOperation : Obligations.StepRunsThePresentedOperation := by
  intro s p rest hin hr hv
  have hstep : step s = exec (decode p.word) { s with input := rest } :=
    step_operation s p rest p.word hin (presented_of_valid hr hv)
  have h9 := word_getLsbD_nine p
  have h8 := word_getLsbD_eight p
  refine ⟨h9, h8, pix_word p, wf_decode _, hstep, fun hs => ?_, fun hs he => ?_, fun hs he => ?_⟩
  · rw [hstep, decode_eq_start (h9.trans hs)]
  · rw [hstep, decode_eq_endInput (h9.trans hs) (h8.trans he)]
  · rw [hstep, decode_eq_ofPix (h9.trans hs) (h8.trans he), pix_word]

/-- Settles O22: a number that fits the ten lines is placed as its word, which comes off the port unchanged. -/
theorem stepRunsTheWordPlacedForIt : Obligations.StepRunsTheWordPlacedForIt := by
  intro s nbits n h
  have hport : portWord nbits n = .ok (BitVec.ofNat 10 (n % 2 ^ nbits)) := if_pos h
  refine ⟨_, ?_, rfl, ?_⟩
  · rw [decodeTableWord, decodeNat, hport]
  · rw [State.withFetchWord, presentTableWord, hport]
    exact step_operation _ _ _ _ rfl (presented_ofWord _)

/-- Settles O23: both ways of nothing being presented end in `idle`. -/
theorem nothingPresentedHoldsTheState : Obligations.NothingPresentedHoldsTheState := by
  rintro s (hin | ⟨p, rest, hin, hr, hv⟩)
  · exact ⟨_, step_nil s hin, rfl, rfl, rfl, rfl, rfl, rfl, by rw [hin]; exact hin⟩
  · exact ⟨_, step_nothing s p rest hin (presented_of_not_valid hr hv), rfl, rfl, rfl, rfl, rfl, rfl, by rw [hin]; rfl⟩

/-- Settles O24: the reset is looked at before `IN_VALID`, so the operation beside it is never decoded. -/
theorem hardwareResetBeatsThePresentedOperation : Obligations.HardwareResetBeatsThePresentedOperation :=
  fun s p rest hin hr =>
    ⟨_, step_hardwareReset s p rest hin (presented_of_hwReset hr), rfl, rfl, rfl, rfl, rfl, rfl⟩

/-- Settles O26: the fields of the state after reset. -/
theorem resetIsTheStartState : Obligations.ResetIsTheStartState :=
  ⟨rfl, rfl, acc_of_cnt_eq_zero rfl, rfl, rfl⟩

/-- Settles O27: all three end in `outNone (beginRun _)`. -/
theorem startEndAndResetLeaveTheSameRegisters : Obligations.StartEndAndResetLeaveTheSameRegisters :=
  ⟨fun s => ⟨_, _, exec_start s, exec_endInput s, atStart_outNone_beginRun s, atStart_outNone_beginRun (closeRun s),
    atStart_outNone_beginRun s, rfl, rfl, rfl⟩, hardwareReset_powerOn⟩

end Sys2Proof.Machine

/-! ## What any number of steps keeps (R15, R151) -/

namespace Sys2Proof.Machine

theorem run_core_succ {s u : State} (h : step s = .next u) (k : Nat) :
    Host.Core.run Sys2Proof.core (k + 1) s = Host.Core.run Sys2Proof.core k u :=
  run_succ_of_step (M := Sys2Proof.core) h k

theorem run_succ_next {k : Nat} {s t : State} (h : Host.Core.run Sys2Proof.core (k + 1) s = .next t) :
    ∃ u, step s = .next u ∧ Host.Core.run Sys2Proof.core k u = .next t := by
  obtain ⟨u, hu⟩ := step_total s
  exact ⟨u, hu, (run_core_succ hu k).symm.trans h⟩

/-- Between `s` and `t` the histories only grew. -/
def OnlyAppends (s t : State) : Prop := s.out <+: t.out ∧ s.runs <+: t.runs

theorem OnlyAppends.trans {s t u : State} (h : OnlyAppends s t) (h' : OnlyAppends t u) : OnlyAppends s u := by
  obtain ⟨hout, hruns⟩ := h
  obtain ⟨hout', hruns'⟩ := h'
  exact ⟨hout.trans hout', hruns.trans hruns'⟩

theorem exec_runs_prefix {i : Instr} {s t : State} (h : exec i s = .next t) : s.runs <+: t.runs := by
  obtain rfl | rfl | ⟨b, rfl⟩ | ⟨v, rfl⟩ := instr_cases i
  · cases h; exact List.prefix_rfl
  · cases h; exact List.prefix_append _ _
  · rw [exec_pushOf] at h; cases h; rw [push_runs]
  · cases h; exact List.prefix_rfl

theorem step_onlyAppends {s t : State} (h : step s = .next t) : OnlyAppends s t := by
  obtain ⟨-, hout, -⟩ := step_emits h
  refine ⟨hout ▸ List.prefix_append _ _, ?_⟩
  obtain ⟨-, rfl⟩ | ⟨-, rfl⟩ | ⟨w, -, hw⟩ := step_next_cases h
  · exact List.prefix_rfl
  · exact List.prefix_rfl
  · exact exec_runs_prefix (s := { s with input := s.input.tail }) hw

theorem run_onlyAppends {k : Nat} {s t : State} (h : Host.Core.run Sys2Proof.core k s = .next t) :
    OnlyAppends s t := by
  induction k generalizing s with
  | zero => cases h; exact ⟨List.prefix_rfl, List.prefix_rfl⟩
  | succ k ih =>
    obtain ⟨u, hu, hrest⟩ := run_succ_next h
    exact (step_onlyAppends hu).trans (ih hrest)

/-- Settles O31: each step appends at most one byte and at most one closed run. -/
theorem emittedBytesStayEmitted : Obligations.EmittedBytesStayEmitted := fun _ _ _ => run_onlyAppends

/-! ## A list of operations through the port (R74, R163)

Presented by their canonical words, well-formed operations do in as many steps what `runOps` does. -/

theorem push_withInput (b : Bool) (s : State) (ps : List InPort) :
    push b { s with input := ps } = { push b s with input := ps } := by
  obtain ⟨hc, e⟩ | ⟨hc, e⟩ := push_cases b s <;> rw [e]
  · exact push_of_ne b _ hc
  · exact push_of_eq b _ hc

/-- No operation reads what will be presented, nor writes it (R15). -/
theorem exec_withInput {i : Instr} {s t : State} (h : exec i s = .next t) (ps : List InPort) :
    exec i { s with input := ps } = .next { t with input := ps } := by
  obtain rfl | rfl | ⟨b, rfl⟩ | ⟨v, rfl⟩ := instr_cases i
  · cases h; rfl
  · cases h; rfl
  · rw [exec_pushOf] at h ⊢; cases h
    exact congrArg Host.Outcome.next (push_withInput b s ps)
  · cases h; rfl

theorem runOps_cons_next {i : Instr} {is : List Instr} {s t : State} (h : runOps (i :: is) s = .next t) :
    ∃ u, exec i s = .next u ∧ runOps is u = .next t := by
  obtain ⟨u, hu⟩ := exec_total i s
  rw [runOps, hu] at h
  exact ⟨u, hu, h⟩

theorem step_encode {i : Instr} (hwf : i.wf = true) {s t : State} (h : exec i s = .next t) (ps : List InPort) :
    step { s with input := InPort.ofWord (encode i) :: ps } = .next { t with input := ps } := by
  rw [step_operation _ _ ps _ rfl (presented_ofWord (encode i)), decode_encode hwf]
  exact exec_withInput h ps

theorem run_presentations {is : List Instr} (hwf : ∀ i ∈ is, i.wf = true) {s t : State} (h : runOps is s = .next t)
    (rest : List InPort) :
    Host.Core.run Sys2Proof.core is.length { s with input := presentations is ++ rest } =
      .next { t with input := rest } := by
  induction is generalizing s with
  | nil => cases h; rfl
  | cons i is ih =>
    obtain ⟨hi, his⟩ := List.forall_mem_cons.1 hwf
    obtain ⟨u, hu, hrest⟩ := runOps_cons_next h
    exact (run_core_succ (step_encode hi hu (presentations is ++ rest)) is.length).trans (ih his hrest)

/-- The operation of a pixel is none of the two that move the run records. -/
theorem ofIntensity_ne_control (v : Int) : Instr.ofIntensity v ≠ .start ∧ Instr.ofIntensity v ≠ .endInput := by
  obtain ⟨b, -, e⟩ | ⟨-, u, e⟩ := ofIntensity_cases v <;> rw [e]
  · exact pushOf_ne_control b
  · exact ⟨nofun, nofun⟩

theorem runOps_pixels_runRecords {vs : List Int} {s t : State} (h : runOps (vs.map Instr.ofIntensity) s = .next t) :
    t.runStart = s.runStart ∧ t.runs = s.runs := by
  induction vs generalizing s with
  | nil => cases h; exact ⟨rfl, rfl⟩
  | cons v vs ih =>
    obtain ⟨u, hu, hrest⟩ := runOps_cons_next h
    obtain ⟨hs, he⟩ := ofIntensity_ne_control v
    obtain ⟨-, -, -, hpixel⟩ := onlyStartAndEndMoveTheRunRecords _ s u hu
    obtain ⟨hstart, hruns⟩ := hpixel hs he
    obtain ⟨hstart', hruns'⟩ := ih hrest
    exact ⟨hstart'.trans hstart, hruns'.trans hruns⟩

theorem wf_pixels_end (vs : List Byte) : ∀ i ∈ vs.map Instr.ofPix ++ [.endInput], i.wf = true := by
  intro i hi
  obtain hpix | hend := List.mem_append.1 hi
  · obtain ⟨v, -, rfl⟩ := List.mem_map.1 hpix
    exact wf_ofPix v
  · rw [List.mem_singleton.1 hend]; rfl

/-- Settles O35: the pixels leave the bytes of the whole groups and the run records; `END` then closes the run with what
was emitted since it began. -/
theorem runThroughThePortsIsTheClosedForm : Obligations.RunThroughThePortsIsTheClosedForm := by
  intro s vs rest hs hin
  obtain ⟨u, hu, hout, -, -, -⟩ :=
    runOps_pixels_holdsBits (vs.map fun v => (v.toNat : Int)) (holdsBits_of_atStart hs)
  obtain ⟨hstart, hruns⟩ := runOps_pixels_runRecords hu
  rw [map_ofIntensity_toNat] at hu
  have hops : runOps (vs.map Instr.ofPix ++ [.endInput]) s = .next (outNone (beginRun (closeRun u))) :=
    runOps_append_of_next hu [.endInput]
  have hrun := run_presentations (wf_pixels_end vs) hops rest
  rw [← hin, List.length_append, List.length_map] at hrun
  refine ⟨_, hrun, ⟨rfl, rfl⟩, rfl, hout, fun hbegin => ?_⟩
  change u.runs ++ [u.out.drop u.runStart] = _
  rw [hruns, hstart, hbegin, hout, List.drop_left, List.nil_append]

end Sys2Proof.Machine

/-! ## What `encode` does not depend on (R74, R77, R79) -/

namespace Sys2Proof.Machine

theorem classifiedBits_append (xs ys : List Int) :
    classifiedBits (xs ++ ys) = classifiedBits xs ++ classifiedBits ys := List.filterMap_append

theorem bitOfClass_of_ne {v : Int} (h0 : v ≠ 0) (h255 : v ≠ 255) : bitOfClass (classifyInt v) = none := by
  rw [classifyInt_of_ne h0 h255]; rfl

theorem classifiedBits_of_skipped {vs : List Int} (h : ∀ v ∈ vs, v ≠ 0 ∧ v ≠ 255) : classifiedBits vs = [] := by
  refine List.filterMap_eq_nil_iff.2 fun v hv => ?_
  obtain ⟨h0, h255⟩ := h v hv
  exact bitOfClass_of_ne h0 h255

/-- No pending bits is the start state, by R13. -/
theorem atStart_of_holdsBits_nil {s : State} {base : List Byte} (h : s.holdsBits base []) :
    s.atStart ∧ s.out = base := by
  obtain ⟨hout, -, hcnt, hok⟩ := h
  have hcnt0 : s.cnt = 0 := BitVec.eq_of_toNat_eq hcnt
  rw [State.accumulatorOk, hcnt0] at hok
  exact ⟨⟨BitVec.eq_of_toNat_eq (Nat.lt_one_iff.1 hok), hcnt0⟩, hout.trans (List.append_nil _)⟩

/-- Settles O38: the first pixels, however many, leave the start state's list of bits, the empty one. -/
theorem emptyAndAllSkippedInputsEmitNothing : Obligations.EmptyAndAllSkippedInputsEmitNothing := by
  refine ⟨encodeTokens_eq_map [], fun vs hvs => ⟨?_, fun s n hs => ?_⟩⟩
  · rw [encodeTokens_eq_map, classifiedBits_of_skipped hvs]; rfl
  · obtain ⟨t, ht, hbits⟩ := runOps_pixels_holdsBits (vs.take n) (holdsBits_of_atStart hs)
    rw [classifiedBits_of_skipped fun v hv => hvs v (List.mem_of_mem_take hv)] at hbits
    exact ⟨t, ht, atStart_of_holdsBits_nil hbits⟩

/-- Settles O39: whole groups are grouped apart from what follows; one black pixel and seven more make a byte that
neither part makes; an unclassified value adds no bit. -/
theorem encodeOfAConcatenation : Obligations.EncodeOfAConcatenation := by
  refine ⟨fun xs ys hdvd => ?_, ⟨[0], [0, 0, 0, 0, 0, 0, 0], fun h => ?_⟩, fun xs ys v h0 h255 => ?_⟩
  · rw [encodeTokens_eq_map, classifiedBits_append, bytesOfBits_append _ _ hdvd, List.map_append,
      ← encodeTokens_eq_map, ← encodeTokens_eq_map]
  · have hlen := congrArg List.length h
    rw [List.length_append, length_encodeTokens, length_encodeTokens, length_encodeTokens] at hlen
    exact absurd hlen (by decide)
  · rw [encodeTokens_eq_map, classifiedBits_append, classifiedBits_cons, bitOfClass_of_ne h0 h255, Option.toList_none,
      List.nil_append, ← classifiedBits_append, ← encodeTokens_eq_map]

/-- Settles O33: the closed form on the four inputs. -/
theorem reversingTheInputChangesTheOutput : Obligations.ReversingTheInputChangesTheOutput := by
  unfold Obligations.ReversingTheInputChangesTheOutput
  simp only [encodeBytes_eq_bytesOfBits]
  decide

/-! ## When a byte appears (R43, R163) -/

theorem push_outValid_iff (b : Bool) (s : State) : (push b s).outValid = true ↔ s.cnt.toNat = 7 := by
  refine ⟨fun h => ?_, fun h => ?_⟩
  · by_contra hne
    have hlt := s.cnt.isLt
    obtain ⟨-, -, hv, -⟩ := push_below_seven b (s := s) (by omega)
    exact absurd (hv.symm.trans h) nofun
  · obtain ⟨-, -, hv, -⟩ := push_at_seven b h
    exact hv

theorem isSome_bitOfClass_iff (v : Int) : (bitOfClass (classifyInt v)).isSome = true ↔ v = 0 ∨ v = 255 := by
  rw [← classifyInt_eq_black0_iff, ← classifyInt_eq_white1_iff]
  cases classifyInt v <;> simp [bitOfClass]

/-- One more pixel emits exactly when it is classified and completes a group. -/
theorem exec_ofIntensity_outValid (v : Int) {s : State} {bits : List Bool} (h : s.cnt.toNat = bits.length % 8) :
    ∃ t, exec (Instr.ofIntensity v) s = .next t ∧
      (t.outValid = true ↔ (v = 0 ∨ v = 255) ∧ 8 ∣ (bits ++ (bitOfClass (classifyInt v)).toList).length) := by
  rw [← isSome_bitOfClass_iff]
  obtain ⟨b, hb, hi⟩ | ⟨hb, u, hi⟩ := ofIntensity_cases v <;> rw [hb, hi]
  · refine ⟨_, exec_pushOf b s, ?_⟩
    rw [push_outValid_iff, h, Option.toList_some, List.length_append, List.length_singleton]
    exact ⟨fun h7 => ⟨rfl, by omega⟩, fun ⟨_, hdvd⟩ => by omega⟩
  · exact ⟨_, exec_skip u s, nofun, fun ⟨hnone, _⟩ => absurd hnone nofun⟩

theorem runOps_total_prefix (is : List Instr) (s : State) : ∃ t, runOps is s = .next t ∧ s.out <+: t.out := by
  induction is generalizing s with
  | nil => exact ⟨s, rfl, List.prefix_rfl⟩
  | cons i is ih =>
    obtain ⟨u, hu, hout⟩ := exec_next_emits i s
    obtain ⟨t, ht, hpre⟩ := ih u
    refine ⟨t, by rw [runOps, hu]; exact ht, List.IsPrefix.trans ?_ hpre⟩
    rw [hout]
    exact List.prefix_append _ _

/-- Settles O42: `CNT` is the classified count modulo 8, so the eighth push of a group is the pixel that makes the count
a multiple of 8; later pixels only append. -/
theorem bytesAppearExactlyAtEveryEighthClassifiedPixel :
    Obligations.BytesAppearExactlyAtEveryEighthClassifiedPixel := by
  intro s vs hs
  obtain ⟨t, ht, -, -, hcnt, -⟩ := runOps_pixels_holdsBits vs (holdsBits_of_atStart hs)
  rw [List.nil_append] at hcnt
  refine ⟨t, ht, fun v => ?_, fun ws => ?_⟩
  · have hone : classifiedBits [v] = (bitOfClass (classifyInt v)).toList := by
      rw [classifiedBits_cons]; exact List.append_nil _
    rw [classifiedBits_append, hone]
    exact exec_ofIntensity_outValid v hcnt
  · obtain ⟨u, hu, hpre⟩ := runOps_total_prefix (ws.map Instr.ofIntensity) t
    rw [List.map_append, runOps_append_of_next ht]
    exact ⟨u, hu, hpre⟩

end Sys2Proof.Machine

/-! ## Idle presentations and `SKIP` words (R41, R79, R142)

Two streams that differ only in presentations that do not matter are run side by side; the states stay equal in all that
a later step reads or records of the block. -/

namespace Sys2Proof.Machine

/-- The fields that a later step reads or that record the runs, apart from the stream: everything but the port and the
free values. -/
def SameRun (s t : State) : Prop :=
  s.sr = t.sr ∧ s.cnt = t.cnt ∧ s.out = t.out ∧ s.runStart = t.runStart ∧ s.runs = t.runs

theorem SameRun.refl (s : State) : SameRun s s := ⟨rfl, rfl, rfl, rfl, rfl⟩

theorem SameRun.trans {s t u : State} (h : SameRun s t) (h' : SameRun t u) : SameRun s u := by
  obtain ⟨hsr, hcnt, hout, hstart, hruns⟩ := h
  obtain ⟨hsr', hcnt', hout', hstart', hruns'⟩ := h'
  exact ⟨hsr.trans hsr', hcnt.trans hcnt', hout.trans hout', hstart.trans hstart', hruns.trans hruns'⟩

theorem sameRun_outNone_beginRun {s t : State} (hout : s.out = t.out) (hruns : s.runs = t.runs) :
    SameRun (outNone (beginRun s)) (outNone (beginRun t)) :=
  ⟨rfl, rfl, hout, congrArg List.length hout, hruns⟩

theorem sameRun_push (b : Bool) {s t : State} (h : SameRun s t) : SameRun (push b s) (push b t) := by
  obtain ⟨hsr, hcnt, hout, hstart, hruns⟩ := h
  obtain ⟨-, hgrow, -⟩ := emits_push b s
  obtain ⟨-, hgrow', -⟩ := emits_push b t
  refine ⟨?_, ?_, ?_, ?_, ?_⟩
  · rw [push_sr, push_sr, hsr, hcnt]
  · rw [push_cnt, push_cnt, hcnt]
  · rw [hgrow, hgrow', hsr, hcnt, hout]
  · rw [push_runStart, push_runStart, hstart]
  · rw [push_runs, push_runs, hruns]

theorem sameRun_closeRun {s t : State} (h : SameRun s t) : SameRun (closeRun s) (closeRun t) := by
  obtain ⟨hsr, hcnt, hout, hstart, hruns⟩ := h
  exact ⟨hsr, hcnt, hout, hstart, by
    rw [closeRun_runs, closeRun_runs, State.runOut, State.runOut, hout, hstart, hruns]⟩

theorem exec_sameRun (i : Instr) {s t : State} (h : SameRun s t) :
    ∃ s' t', exec i s = .next s' ∧ exec i t = .next t' ∧ SameRun s' t' := by
  have ⟨_, _, hout, _, hruns⟩ := h
  obtain rfl | rfl | ⟨b, rfl⟩ | ⟨v, rfl⟩ := instr_cases i
  · exact ⟨_, _, exec_start s, exec_start t, sameRun_outNone_beginRun hout hruns⟩
  · obtain ⟨_, _, hout', _, hruns'⟩ := sameRun_closeRun h
    exact ⟨_, _, exec_endInput s, exec_endInput t, sameRun_outNone_beginRun hout' hruns'⟩
  · exact ⟨_, _, exec_pushOf b s, exec_pushOf b t, sameRun_push b h⟩
  · exact ⟨_, _, exec_skip v s, exec_skip v t, h⟩

/-- One presentation is consumed per step (R31). -/
theorem step_input {s t : State} (h : step s = .next t) : t.input = s.input.tail := by
  obtain ⟨-, rfl⟩ | ⟨-, rfl⟩ | ⟨w, -, hw⟩ := step_next_cases h
  · rfl
  · rfl
  · obtain ⟨hin, -⟩ := onlyStartAndEndMoveTheRunRecords _ _ _ hw
    exact hin

theorem step_sameRun {s t : State} {p : InPort} {ps qs : List InPort} (hs : s.input = p :: ps)
    (ht : t.input = p :: qs) (h : SameRun s t) :
    ∃ s' t', step s = .next s' ∧ step t = .next t' ∧ SameRun s' t' := by
  have ⟨_, _, hout, _, hruns⟩ := h
  cases hp : p.presented with
  | nothing => exact ⟨_, _, step_nothing s p ps hs hp, step_nothing t p qs ht hp, h⟩
  | hardwareReset =>
    exact ⟨_, _, step_hardwareReset s p ps hs hp, step_hardwareReset t p qs ht hp,
      sameRun_outNone_beginRun hout hruns⟩
  | operation w =>
    rw [step_operation s p ps w hs hp, step_operation t p qs w ht hp]
    exact exec_sameRun (decode w) (s := { s with input := ps }) (t := { t with input := qs }) h

theorem matters_eq_false {p : InPort} (h : p.matters = false) :
    p.presented = .nothing ∨ ∃ w v, p.presented = .operation w ∧ decode w = .skip v := by
  rw [InPort.matters] at h
  cases hp : p.presented with
  | nothing => exact .inl rfl
  | hardwareReset => simp [hp] at h
  | operation w =>
    cases hd : decode w with
    | skip v => exact .inr ⟨w, v, rfl, hd⟩
    | start | endInput | push0 | push1 => simp [hp, hd] at h

/-- A presentation that does not matter is gone after the step, and nothing else of the run has moved. -/
theorem step_of_not_matters {s : State} {p : InPort} {ps : List InPort} (hs : s.input = p :: ps)
    (hp : p.matters = false) : ∃ t, step s = .next t ∧ SameRun t s := by
  obtain hn | ⟨w, v, hw, hd⟩ := matters_eq_false hp
  · exact ⟨_, step_nothing s p ps hs hn, SameRun.refl s⟩
  · refine ⟨outNone { s with input := ps }, ?_, SameRun.refl s⟩
    rw [step_operation s p ps w hs hw, hd, exec_skip]

/-- Whatever the two streams' states hold on the port, they end with the same run. -/
theorem run_filter_matters (ps : List InPort) {s t : State} (hs : s.input = ps)
    (ht : t.input = ps.filter InPort.matters) (h : SameRun s t) :
    ∃ s' t', Host.Core.run Sys2Proof.core ps.length s = .next s' ∧
      Host.Core.run Sys2Proof.core (ps.filter InPort.matters).length t = .next t' ∧
      SameRun s' t' ∧ s'.input = [] ∧ t'.input = [] := by
  induction ps generalizing s t with
  | nil => exact ⟨s, t, rfl, rfl, h, hs, ht⟩
  | cons p ps ih =>
    cases hp : p.matters with
    | false =>
      rw [List.filter_cons_of_neg (by simp [hp])] at ht ⊢
      obtain ⟨u, hu, hsame⟩ := step_of_not_matters hs hp
      obtain ⟨s', t', hrun, hrun', hrest⟩ := ih (by rw [step_input hu, hs]; rfl) ht (hsame.trans h)
      exact ⟨s', t', (run_core_succ hu _).trans hrun, hrun', hrest⟩
    | true =>
      rw [List.filter_cons_of_pos hp] at ht ⊢
      obtain ⟨u, v, hu, hv, hsame⟩ := step_sameRun hs ht h
      obtain ⟨s', t', hrun, hrun', hrest⟩ :=
        ih (by rw [step_input hu, hs]; rfl) (by rw [step_input hv, ht]; rfl) hsame
      exact ⟨s', t', (run_core_succ hu _).trans hrun, (run_core_succ hv _).trans hrun', hrest⟩

/-- Settles O43: the two streams are run side by side from one state. -/
theorem skipsAndIdlingNeverMatter : Obligations.SkipsAndIdlingNeverMatter := by
  intro s
  obtain ⟨t, u, ht, hu, ⟨hsr, hcnt, hout, -, hruns⟩, hend, hend'⟩ :=
    run_filter_matters s.input (t := { s with input := s.input.filter InPort.matters }) rfl rfl (SameRun.refl s)
  exact ⟨t, u, ht, hu, hsr, hcnt, hout, hruns, hend, hend'⟩

end Sys2Proof.Machine

/-! ## After a delimiter (R22, R78, R152)

`START`, `END` and the hardware reset make any two states with the same stream agree (`Agrees`), and agreeing states
emit and show the same from then on. -/

namespace Sys2Proof.Machine

/-- An observer of the port cannot tell the two states apart (R24, R32). -/
def ShowsAlike (s t : State) : Prop :=
  s.outValid = t.outValid ∧ (s.outValid = true → s.outByte = t.outByte ∧ s.outTok = t.outTok)

/-- From `s1` and `s2` the same bytes were emitted, up to states that agree and show the same. -/
def RunsAlike (s1 s2 t1 t2 : State) : Prop :=
  Agrees t1 t2 ∧ ShowsAlike t1 t2 ∧ ∃ bytes, t1.out = s1.out ++ bytes ∧ t2.out = s2.out ++ bytes

theorem outValid_eq_isSome_emission (s : State) : s.outValid = s.emission.isSome := by
  rw [State.emission]
  cases s.outValid <;> rfl

theorem showsAlike_of_emits {s1 s2 t1 t2 : State} {o : Option Byte} (h1 : Emits s1 t1 o) (h2 : Emits s2 t2 o) :
    ShowsAlike t1 t2 := by
  obtain ⟨hem1, -, htok1⟩ := h1
  obtain ⟨hem2, -, htok2⟩ := h2
  have hvalid : t1.outValid = t2.outValid := by
    rw [outValid_eq_isSome_emission, outValid_eq_isSome_emission, hem1, hem2]
  refine ⟨hvalid, fun hv => ?_⟩
  have ho1 : o = some t1.outByte := hem1.symm.trans (emission_of_outValid hv)
  have ho2 : o = some t2.outByte := hem2.symm.trans (emission_of_outValid (hvalid ▸ hv))
  have hbyte : t1.outByte = t2.outByte := Option.some.inj (ho1.symm.trans ho2)
  exact ⟨hbyte, by rw [htok1 _ ho1, htok2 _ ho2, hbyte]⟩

theorem StepsAlike.runsAlike {s1 s2 t1 t2 : State} (h : StepsAlike s1 s2 t1 t2) : RunsAlike s1 s2 t1 t2 := by
  obtain ⟨hagree, o, h1, h2⟩ := h
  refine ⟨hagree, showsAlike_of_emits h1 h2, o.toList, ?_⟩
  obtain ⟨-, hout1, -⟩ := h1
  obtain ⟨-, hout2, -⟩ := h2
  exact ⟨hout1, hout2⟩

theorem RunsAlike.trans {s1 s2 t1 t2 u1 u2 : State} (h : RunsAlike s1 s2 t1 t2) (h' : RunsAlike t1 t2 u1 u2) :
    RunsAlike s1 s2 u1 u2 := by
  obtain ⟨-, -, bytes, hout1, hout2⟩ := h
  obtain ⟨hagree, hshow, bytes', hout1', hout2'⟩ := h'
  exact ⟨hagree, hshow, bytes ++ bytes', by rw [hout1', hout1, List.append_assoc],
    by rw [hout2', hout2, List.append_assoc]⟩

theorem delimits_cases {p : InPort} (h : p.delimits = true) :
    p.presented = .hardwareReset ∨
    ∃ w, p.presented = .operation w ∧ (decode w = .start ∨ decode w = .endInput) := by
  rw [InPort.delimits] at h
  cases hp : p.presented with
  | nothing => simp [hp] at h
  | hardwareReset => exact .inl rfl
  | operation w => exact .inr ⟨w, rfl, by simpa [hp] using h⟩

/-- A delimiter reads neither register, so the states need not agree before it. -/
theorem step_delimiter_stepsAlike {s1 s2 : State} {p : InPort} {ps : List InPort} (h1 : s1.input = p :: ps)
    (h2 : s2.input = p :: ps) (hp : p.delimits = true) :
    ∃ t1 t2, step s1 = .next t1 ∧ step s2 = .next t2 ∧ StepsAlike s1 s2 t1 t2 := by
  obtain hr | ⟨w, hw, hd⟩ := delimits_cases hp
  · exact ⟨_, _, step_hardwareReset s1 p ps h1 hr, step_hardwareReset s2 p ps h2 hr,
      stepsAlike_outNone_beginRun rfl rfl rfl⟩
  · rw [step_operation s1 p ps w h1 hw, step_operation s2 p ps w h2 hw]
    obtain hd | hd := hd <;> rw [hd]
    · exact ⟨_, _, exec_start _, exec_start _, stepsAlike_outNone_beginRun rfl rfl rfl⟩
    · exact ⟨_, _, exec_endInput _, exec_endInput _, stepsAlike_outNone_beginRun rfl rfl rfl⟩

/-- Once one step was alike, so is every number of further ones. -/
theorem run_runsAlike (k : Nat) {s1 s2 : State}
    (h : ∃ t1 t2, step s1 = .next t1 ∧ step s2 = .next t2 ∧ StepsAlike s1 s2 t1 t2) :
    ∃ t1 t2, Host.Core.run Sys2Proof.core (k + 1) s1 = .next t1 ∧
      Host.Core.run Sys2Proof.core (k + 1) s2 = .next t2 ∧ RunsAlike s1 s2 t1 t2 := by
  obtain ⟨u1, u2, hu1, hu2, halike⟩ := h
  rw [run_core_succ hu1, run_core_succ hu2]
  induction k generalizing s1 s2 u1 u2 with
  | zero => exact ⟨u1, u2, rfl, rfl, halike.runsAlike⟩
  | succ k ih =>
    have ⟨hagree, _⟩ := halike
    obtain ⟨v1, v2, hv1, hv2, halike'⟩ := step_stepsAlike hagree
    obtain ⟨t1, t2, ht1, ht2, hrest⟩ := ih v1 v2 hv1 hv2 halike'
    exact ⟨t1, t2, (run_core_succ hv1 k).trans ht1, (run_core_succ hv2 k).trans ht2, halike.runsAlike.trans hrest⟩

/-- Settles O44: the delimiter makes the two states agree, and agreement lasts. -/
theorem noStateCrossesADelimiter : Obligations.NoStateCrossesADelimiter := by
  intro s1 s2 p rest h1 h2 hp k
  obtain ⟨t1, t2, ht1, ht2, ⟨hsr, hcnt, hin⟩, ⟨hvalid, hdata⟩, bytes, hout1, hout2⟩ :=
    run_runsAlike k (step_delimiter_stepsAlike h1 h2 hp)
  refine ⟨t1, t2, ht1, ht2, ?_, hsr, hcnt, hin, hvalid, hdata⟩
  unfold emittedBetween
  rw [hout1, hout2, List.drop_left, List.drop_left]

end Sys2Proof.Machine

/-! ## The token of a byte, and the sink's text (R110 to R116) -/

namespace Sys2Proof.Machine

/-- The two ranges of digit codes, `0` to `9` and `a` to `f` (R111, R112). -/
theorem charCode_digit_toNat (d : BitVec 4) :
    (charCode (digit d)).toNat = if d.toNat ≤ 9 then 0x30 + d.toNat else 0x57 + d.toNat := by
  revert d; decide

theorem highNibble_toNat (b : Byte) : (highNibble b).toNat = b.toNat / 16 := by
  have hlt := b.isLt
  rw [highNibble, BitVec.extractLsb'_toNat, Nat.shiftRight_eq_div_pow]
  omega

theorem lowNibble_toNat (b : Byte) : (lowNibble b).toNat = b.toNat % 16 := by
  rw [lowNibble, BitVec.extractLsb'_toNat, Nat.shiftRight_zero]

theorem highNibble_eq_zero_iff (b : Byte) : highNibble b = 0 ↔ b.toNat < 16 := by
  rw [← BitVec.toNat_inj, highNibble_toNat]
  change b.toNat / 16 = 0 ↔ _
  omega

/-- One digit below 16, two from 16 on (R110). -/
theorem hexToken_eq (b : Byte) :
    hexToken b =
      if b.toNat < 16 then [0x30, 0x78, charCode (digit (lowNibble b))]
      else [0x30, 0x78, charCode (digit (highNibble b)), charCode (digit (lowNibble b))] := by
  rw [hexToken, hexChars]
  split
  · next h => rw [if_pos ((highNibble_eq_zero_iff b).1 h)]; rfl
  · next h => rw [if_neg (mt (highNibble_eq_zero_iff b).2 h)]; rfl

/-- Settles O48: the nibbles are the quotient and the remainder by 16. -/
theorem hexTokenHasNoLeadingZero : Obligations.HexTokenHasNoLeadingZero := by
  refine ⟨charCode_digit_toNat, fun b => ?_, fun b => ?_⟩
  · have hhigh : BitVec.ofNat 4 (b.toNat / 16) = highNibble b := by
      rw [← highNibble_toNat, BitVec.ofNat_toNat, BitVec.setWidth_eq]
    have hlow : BitVec.ofNat 4 (b.toNat % 16) = lowNibble b := by
      rw [← lowNibble_toNat, BitVec.ofNat_toNat, BitVec.setWidth_eq]
    rw [hexToken_eq, hhigh, hlow]
    split
    · next h => rw [← hlow, Nat.mod_eq_of_lt h]
    · rfl
  · rw [hexToken_eq]
    split <;> rfl

theorem digitValue_charCode_digit (d : BitVec 4) : digitValue (charCode (digit d)) = some d.toNat := by
  revert d; decide

theorem numeralValue_digit_cons (acc : Nat) (d : BitVec 4) (cs : List Byte) :
    numeralValue acc (charCode (digit d) :: cs) = numeralValue (acc * 16 + d.toNat) cs := by
  rw [numeralValue, digitValue_charCode_digit]

/-- R113, by `b = 16 * high + low`. -/
theorem tokenValue_hexToken (b : Byte) : tokenValue (hexToken b) = some b.toNat := by
  have hhigh := highNibble_toNat b
  have hlow := lowNibble_toNat b
  rw [hexToken_eq]
  split
  · change numeralValue 0 _ = _
    rw [numeralValue_digit_cons, numeralValue, hlow]
    exact congrArg some (by omega)
  · change numeralValue 0 _ = _
    rw [numeralValue_digit_cons, numeralValue_digit_cons, numeralValue, hhigh, hlow]
    exact congrArg some (by omega)

theorem hexToken_injective {a b : Byte} (h : hexToken a = hexToken b) : a = b := by
  have hval : some a.toNat = some b.toNat := by rw [← tokenValue_hexToken, ← tokenValue_hexToken, h]
  exact BitVec.eq_of_toNat_eq (Option.some.inj hval)

theorem mem_hexToken {b c : Byte} (h : c ∈ hexToken b) : c = 0x30 ∨ c = 0x78 ∨ ∃ d, c = charCode (digit d) := by
  rw [hexToken_eq] at h
  split at h <;> simp only [List.mem_cons, List.not_mem_nil, or_false] at h
  · obtain h | h | h := h
    · exact .inl h
    · exact .inr (.inl h)
    · exact .inr (.inr ⟨_, h⟩)
  · obtain h | h | h | h := h
    · exact .inl h
    · exact .inr (.inl h)
    · exact .inr (.inr ⟨_, h⟩)
    · exact .inr (.inr ⟨_, h⟩)

/-- All the codes of a token are `0` or above it, and the separators' codes are below. -/
theorem le_of_mem_hexToken {b c : Byte} (h : c ∈ hexToken b) : 0x30 ≤ c.toNat := by
  obtain rfl | rfl | ⟨d, rfl⟩ := mem_hexToken h
  · decide
  · decide
  · rw [charCode_digit_toNat]
    split <;> omega

/-- Settles O49: a token is read back digit by digit, so it determines its byte. -/
theorem tokenReadsBackToItsByte : Obligations.TokenReadsBackToItsByte :=
  ⟨tokenValue_hexToken, fun _ _ => hexToken_injective, fun _ =>
    ⟨fun h => absurd (le_of_mem_hexToken h) (by decide), fun h => absurd (le_of_mem_hexToken h) (by decide),
      fun h => absurd (le_of_mem_hexToken h) (by decide)⟩⟩

theorem render_append (xs ys : List (List Byte)) : render (xs ++ ys) = render xs ++ render ys := by
  induction xs with
  | nil => rfl
  | cons x xs ih =>
    rw [List.cons_append, render, render, ih]
    exact (List.append_assoc _ _ _).symm

/-- The separator is two characters after each token. -/
theorem length_render (ts : List (List Byte)) : (render ts).length = (ts.map List.length).sum + 2 * ts.length := by
  induction ts with
  | nil => rfl
  | cons t ts ih =>
    have hsep : separator.length = 2 := rfl
    rw [render, List.length_append, List.length_append, ih, hsep, List.map_cons, List.sum_cons, List.length_cons]
    omega

/-- Settles O50: `render` token by token. -/
theorem sinkTextFollowsEveryTokenWithASeparator : Obligations.SinkTextFollowsEveryTokenWithASeparator :=
  ⟨rfl, fun _ => List.append_nil _, render_append, length_render⟩

end Sys2Proof.Machine
